-- ==== Sys2Proof/Word.lean ====
section
/-!
DEFINITION. The value types of the chipper CORE (spec/00_scope.md R6, R7, R8). Every value is unsigned; bit 0 is the
least significant bit.
-/

namespace Sys2Proof

/-- An 8-bit value: a general register, a timer, a byte of memory, the immediate `NN`. -/
abbrev Byte := BitVec 8

/-- A 16-bit value: an instruction word, `PC`, `I`, a stack slot. -/
abbrev Word := BitVec 16

/-- A 4-bit slice of an instruction word (30_encoding.md R61). -/
abbrev Nibble := BitVec 4

/-- The 12-bit address literal `NNN` (30_encoding.md R61). -/
abbrev Addr := BitVec 12

/-- A general register's index: always in `0..15` (10_state.md R11, R32 (a)). -/
abbrev Reg := Fin 16

/-- `VF`, the register that doubles as the flag (10_state.md R12). -/
abbrev flagReg : Reg := 15

end Sys2Proof
end

