-- ==== Sys2Proof/Syntax.lean ====
section
/-!
DEFINITION. The decoded instruction of the chipper CORE: one constructor for each row of spec/opcode_table.json, with
the row's fields as its data (spec/30_encoding.md R65, R66). The verdict `Unknown` is no instruction; the decoder
answers it as a rejection.
-/

namespace Sys2Proof

/-- The 34 instructions, in the order of 30_encoding.md R66. `x` and `y` are register indices, `nn` the immediate byte,
`nnn` the address literal, `n` the sprite height of `DRW`. -/
inductive Instr where
  /-- `00E0`, 45_display.md R150. -/
  | cls
  /-- `00EE`, 41_control_flow.md R100. -/
  | ret
  /-- `1NNN`, 41_control_flow.md R101. -/
  | jp (nnn : Addr)
  /-- `2NNN`, 41_control_flow.md R102. -/
  | call (nnn : Addr)
  /-- `3XNN`, 42_skip.md R110. -/
  | seImm (x : Reg) (nn : Byte)
  /-- `4XNN`, 42_skip.md R111. -/
  | sneImm (x : Reg) (nn : Byte)
  /-- `5XY0`, 42_skip.md R112. -/
  | seReg (x y : Reg)
  /-- `6XNN`, 43_alu.md R122. -/
  | ldImm (x : Reg) (nn : Byte)
  /-- `7XNN`, 43_alu.md R123. -/
  | addImm (x : Reg) (nn : Byte)
  /-- `8XY0`, 43_alu.md R124. -/
  | ldReg (x y : Reg)
  /-- `8XY1`, 43_alu.md R125. -/
  | orReg (x y : Reg)
  /-- `8XY2`, 43_alu.md R126. -/
  | andReg (x y : Reg)
  /-- `8XY3`, 43_alu.md R127. -/
  | xorReg (x y : Reg)
  /-- `8XY4`, 43_alu.md R128. -/
  | addReg (x y : Reg)
  /-- `8XY5`, 43_alu.md R129. -/
  | sub (x y : Reg)
  /-- `8XY6`, 43_alu.md R130. The row's `Y` field is kept, and ignored by the meaning (30_encoding.md R68). -/
  | shr (x y : Reg)
  /-- `8XY7`, 43_alu.md R131. -/
  | subn (x y : Reg)
  /-- `8XYE`, 43_alu.md R132. The row's `Y` field is kept, and ignored by the meaning (30_encoding.md R68). -/
  | shl (x y : Reg)
  /-- `9XY0`, 42_skip.md R113. -/
  | sneReg (x y : Reg)
  /-- `ANNN`, 44_index_memory.md R140. -/
  | ldI (nnn : Addr)
  /-- `BNNN`, 41_control_flow.md R103. -/
  | jpV0 (nnn : Addr)
  /-- `CXNN`, 43_alu.md R134. -/
  | rnd (x : Reg) (nn : Byte)
  /-- `DXYN`, 45_display.md R151. `n` is a count of rows. -/
  | drw (x y : Reg) (n : Nat)
  /-- `EX9E`, 42_skip.md R114. -/
  | skp (x : Reg)
  /-- `EXA1`, 42_skip.md R115. -/
  | sknp (x : Reg)
  /-- `FX07`, 46_timer_key.md R160. -/
  | ldVxDt (x : Reg)
  /-- `FX0A`, 46_timer_key.md R164. -/
  | ldVxK (x : Reg)
  /-- `FX15`, 46_timer_key.md R161. -/
  | ldDtVx (x : Reg)
  /-- `FX18`, 46_timer_key.md R162. -/
  | ldStVx (x : Reg)
  /-- `FX1E`, 44_index_memory.md R141. -/
  | addI (x : Reg)
  /-- `FX29`, 44_index_memory.md R142. -/
  | ldF (x : Reg)
  /-- `FX33`, 44_index_memory.md R143. -/
  | ldB (x : Reg)
  /-- `FX55`, 44_index_memory.md R144. -/
  | stRegs (x : Reg)
  /-- `FX65`, 44_index_memory.md R145. -/
  | ldRegs (x : Reg)
deriving DecidableEq, Repr

end Sys2Proof
end

