-- ==== Sys2Proof/Config.lean ====
section
/-!
DEFINITION. The parameters of the chipper CORE, fixed at construction (spec/00_scope.md R5), the byte that memory holds
at an address after construction (10_state.md R28), and the free value of the random byte (40_step_cycle.md R91).
-/

namespace Sys2Proof

/-- The three parameters of 00_scope.md R5. They are arguments of the model: every statement holds for every value of
them, and no step changes them. -/
structure Config where
  /-- `RAM_SIZE`, the number of bytes of memory; valid addresses are `0 .. RAM_SIZE-1`. -/
  ramSize : Nat
  /-- `STACK_DEPTH`, the number of 16-bit slots of the return stack. -/
  stackDepth : Nat
  /-- `FONT`, the 80 bytes written to `memory[0x000..0x04F]` at construction. -/
  font : Vector Byte 80
deriving DecidableEq, Repr

/-- The number of bytes of the font table: 16 glyphs of 5 bytes (10_state.md R30). -/
def Config.fontBytes : Nat := 80

/-- The address of the program region and of the first fetch, `0x200` (00_scope.md R6). -/
def Config.programBase : Nat := 0x200

/-- What an address that nothing has written since construction reads as: the font in the first 80 bytes, zero
elsewhere (10_state.md R28, R30; 20_memory.md R41). -/
def Config.initByte (c : Config) (a : Nat) : Byte :=
  if h : a < 80 then c.font[a] else 0

/-- The customary font table of 10_state.md R30. PRESUMED: the spec marks it general knowledge, and it is only the
value that `State.reset` takes for the open parameter `FONT` (log entry 3). -/
def Config.customaryFont : Vector Byte 80 :=
  #v[0xF0, 0x90, 0x90, 0x90, 0xF0,
     0x20, 0x60, 0x20, 0x20, 0x70,
     0xF0, 0x10, 0xF0, 0x80, 0xF0,
     0xF0, 0x10, 0xF0, 0x10, 0xF0,
     0x90, 0x90, 0xF0, 0x10, 0x10,
     0xF0, 0x80, 0xF0, 0x10, 0xF0,
     0xF0, 0x80, 0xF0, 0x90, 0xF0,
     0xF0, 0x10, 0x20, 0x40, 0x40,
     0xF0, 0x90, 0xF0, 0x90, 0xF0,
     0xF0, 0x90, 0xF0, 0x10, 0xF0,
     0xF0, 0x90, 0xF0, 0x90, 0x90,
     0xE0, 0x90, 0xE0, 0x90, 0xE0,
     0xF0, 0x80, 0x80, 0x80, 0xF0,
     0xE0, 0x90, 0x90, 0x90, 0xE0,
     0xF0, 0x80, 0xF0, 0x80, 0xF0,
     0xF0, 0x80, 0xF0, 0x80, 0x80]

/-- The configuration that `State.reset` is constructed with. PRESUMED: 4096 and 16 are the customary values, which the
spec marks general knowledge (00_scope.md R5; log entries 1 and 2). -/
def Config.customary : Config :=
  { ramSize := 4096, stackDepth := 16, font := Config.customaryFont }

/-- The random byte of `CXNN` (40_step_cycle.md R91, 43_alu.md R134): a free value under no law. The `n`-th byte drawn
since construction is `Config.randByte n`; the constant has no body, so nothing can be proved of its values. -/
opaque Config.randByte : Nat → Byte

end Sys2Proof
end

