-- ==== Sys2Proof/WellFormed.lean ====
section
/-!
DEFINITION. What the types of an instruction and of a configuration do not say by themselves. Register indices,
immediates and address literals are bounded by their types (spec/10_state.md R11, 30_encoding.md R61); the checks that
are left are the row count of `DXYN` and the bounds of the parameter `RAM_SIZE`.
-/

namespace Sys2Proof

/-- An instruction that some word encodes: the row count of `DRW` is the 4-bit field `N`, so at most 15
(30_encoding.md R63). Every other constructor's fields are bounded by their types. -/
def Instr.wellFormed : Instr → Bool
  | .cls => true
  | .ret => true
  | .jp _ => true
  | .call _ => true
  | .seImm _ _ => true
  | .sneImm _ _ => true
  | .seReg _ _ => true
  | .ldImm _ _ => true
  | .addImm _ _ => true
  | .ldReg _ _ => true
  | .orReg _ _ => true
  | .andReg _ _ => true
  | .xorReg _ _ => true
  | .addReg _ _ => true
  | .sub _ _ => true
  | .shr _ _ => true
  | .subn _ _ => true
  | .shl _ _ => true
  | .sneReg _ _ => true
  | .ldI _ => true
  | .jpV0 _ => true
  | .rnd _ _ => true
  | .drw _ _ n => decide (n < 16)
  | .skp _ => true
  | .sknp _ => true
  | .ldVxDt _ => true
  | .ldVxK _ => true
  | .ldDtVx _ => true
  | .ldStVx _ => true
  | .addI _ => true
  | .ldF _ => true
  | .ldB _ => true
  | .stRegs _ => true
  | .ldRegs _ => true

/-- A configuration the spec admits: `512 <= RAM_SIZE <= 65536` (00_scope.md R5). `STACK_DEPTH` is any natural number
and `FONT` has 80 bytes by its type. -/
def Config.wellFormed (c : Config) : Bool :=
  decide (512 ≤ c.ramSize) && decide (c.ramSize ≤ 65536)

end Sys2Proof
end

