-- ==== Sys2Proof/Decode.lean ====
section
/-!
DEFINITION. Decoding and encoding (spec/30_encoding.md): the field slices (R61), the decoder, total on all 65536 words
and on any bytes (R64), the opcode map as rows of a mask and a pattern (R66), and the encoder written from the formats
(R62).
-/

namespace Sys2Proof

/-- Why bytes are not an instruction. -/
inductive DecodeReject where
  /-- The verdict `Unknown`, which carries the whole word (30_encoding.md R64, R65). -/
  | unknownOpcode (w : Word)
  /-- Fewer than two bytes: no instruction is shorter (30_encoding.md R60). -/
  | truncated
deriving DecidableEq, Repr

/-- `OP = w[15:12]`, the opcode family. -/
def fieldOp (w : Word) : Nibble := w.extractLsb' 12 4

/-- The nibble `w[11:8]`. -/
def nibbleX (w : Word) : Nibble := w.extractLsb' 8 4

/-- The nibble `w[7:4]`. -/
def nibbleY (w : Word) : Nibble := w.extractLsb' 4 4

/-- `N = w[3:0]`. -/
def fieldN (w : Word) : Nibble := w.extractLsb' 0 4

/-- `NN = w[7:0]`. -/
def fieldNN (w : Word) : Byte := w.extractLsb' 0 8

/-- `NNN = w[11:0]`. -/
def fieldNNN (w : Word) : Addr := w.extractLsb' 0 12

/-- A 4-bit field as a register index (10_state.md R11). -/
def regOf (b : Nibble) : Reg := ⟨b.toNat, b.isLt⟩

/-- A register index as a 4-bit field. -/
def nibbleOf (x : Reg) : Nibble := BitVec.ofNat 4 x.val

/-- `X = w[11:8]`, the index of the first register operand. -/
def fieldX (w : Word) : Reg := regOf (nibbleX w)

/-- `Y = w[7:4]`, the index of the second register operand. -/
def fieldY (w : Word) : Reg := regOf (nibbleY w)

/-- Family 0: the whole word decides (30_encoding.md R64). -/
def decodeFamily0 (w : Word) : Except DecodeReject Instr :=
  if w = 0x00E0#16 then .ok .cls
  else if w = 0x00EE#16 then .ok .ret
  else .error (.unknownOpcode w)

/-- Family 8: the low nibble decides (30_encoding.md R64). -/
def decodeFamily8 (w : Word) : Except DecodeReject Instr :=
  let x := fieldX w
  let y := fieldY w
  match (fieldN w).toNat with
  | 0x0 => .ok (.ldReg x y)
  | 0x1 => .ok (.orReg x y)
  | 0x2 => .ok (.andReg x y)
  | 0x3 => .ok (.xorReg x y)
  | 0x4 => .ok (.addReg x y)
  | 0x5 => .ok (.sub x y)
  | 0x6 => .ok (.shr x y)
  | 0x7 => .ok (.subn x y)
  | 0xE => .ok (.shl x y)
  | _ => .error (.unknownOpcode w)

/-- Family E: the low byte decides (30_encoding.md R64). -/
def decodeFamilyE (w : Word) : Except DecodeReject Instr :=
  match (fieldNN w).toNat with
  | 0x9E => .ok (.skp (fieldX w))
  | 0xA1 => .ok (.sknp (fieldX w))
  | _ => .error (.unknownOpcode w)

/-- Family F: the low byte decides (30_encoding.md R64). -/
def decodeFamilyF (w : Word) : Except DecodeReject Instr :=
  let x := fieldX w
  match (fieldNN w).toNat with
  | 0x07 => .ok (.ldVxDt x)
  | 0x0A => .ok (.ldVxK x)
  | 0x15 => .ok (.ldDtVx x)
  | 0x18 => .ok (.ldStVx x)
  | 0x1E => .ok (.addI x)
  | 0x29 => .ok (.ldF x)
  | 0x33 => .ok (.ldB x)
  | 0x55 => .ok (.stRegs x)
  | 0x65 => .ok (.ldRegs x)
  | _ => .error (.unknownOpcode w)

/-- `Decode(w)` of 30_encoding.md R64: a total, pure function of the word. -/
def decode (w : Word) : Except DecodeReject Instr :=
  let x := fieldX w
  let y := fieldY w
  let nn := fieldNN w
  let nnn := fieldNNN w
  match (fieldOp w).toNat with
  | 0x0 => decodeFamily0 w
  | 0x1 => .ok (.jp nnn)
  | 0x2 => .ok (.call nnn)
  | 0x3 => .ok (.seImm x nn)
  | 0x4 => .ok (.sneImm x nn)
  | 0x5 => if fieldN w = 0 then .ok (.seReg x y) else .error (.unknownOpcode w)
  | 0x6 => .ok (.ldImm x nn)
  | 0x7 => .ok (.addImm x nn)
  | 0x8 => decodeFamily8 w
  | 0x9 => if fieldN w = 0 then .ok (.sneReg x y) else .error (.unknownOpcode w)
  | 0xA => .ok (.ldI nnn)
  | 0xB => .ok (.jpV0 nnn)
  | 0xC => .ok (.rnd x nn)
  | 0xD => .ok (.drw x y (fieldN w).toNat)
  | 0xE => decodeFamilyE w
  | _ => decodeFamilyF w

/-- The word whose high byte is `hi` and low byte `lo`: the byte at the lower address is the high one
(20_memory.md R45). -/
def wordOfBytes (hi lo : Byte) : Word := hi ++ lo

/-- The byte of a word that lies at the lower address. -/
def highByte (w : Word) : Byte := w.extractLsb' 8 8

/-- The byte of a word that lies at the higher address. -/
def lowByte (w : Word) : Byte := w.extractLsb' 0 8

/-- Decoding from a stream of bytes: the instruction and the bytes after it. Every instruction takes two bytes
(30_encoding.md R60). -/
def decodeBytes : List Byte → Except DecodeReject (Instr × List Byte)
  | hi :: lo :: rest =>
    match decode (wordOfBytes hi lo) with
    | .ok i => .ok (i, rest)
    | .error e => .error e
  | _ => .error .truncated

/-- Formats REG_IMM: `OP`, `X`, `NN` (30_encoding.md R62). -/
def formRegImm (op : Nibble) (x : Reg) (nn : Byte) : Word := op ++ nibbleOf x ++ nn

/-- Format ADDR: `OP`, `NNN` (30_encoding.md R62). -/
def formAddr (op : Nibble) (nnn : Addr) : Word := op ++ nnn

/-- Formats REG_REG and REG_REG_N: `OP`, `X`, `Y`, and the function code or row count (30_encoding.md R62). -/
def formRegReg (op : Nibble) (x y : Reg) (n : Nibble) : Word := op ++ nibbleOf x ++ nibbleOf y ++ n

/-- The word of an instruction, from the formats of 30_encoding.md R62 and the patterns of R66. The row count of `DRW`
is written as its low four bits, which is the count itself for a well-formed instruction. -/
def encode : Instr → Word
  | .cls => 0x00E0#16
  | .ret => 0x00EE#16
  | .jp nnn => formAddr 0x1#4 nnn
  | .call nnn => formAddr 0x2#4 nnn
  | .seImm x nn => formRegImm 0x3#4 x nn
  | .sneImm x nn => formRegImm 0x4#4 x nn
  | .seReg x y => formRegReg 0x5#4 x y 0x0#4
  | .ldImm x nn => formRegImm 0x6#4 x nn
  | .addImm x nn => formRegImm 0x7#4 x nn
  | .ldReg x y => formRegReg 0x8#4 x y 0x0#4
  | .orReg x y => formRegReg 0x8#4 x y 0x1#4
  | .andReg x y => formRegReg 0x8#4 x y 0x2#4
  | .xorReg x y => formRegReg 0x8#4 x y 0x3#4
  | .addReg x y => formRegReg 0x8#4 x y 0x4#4
  | .sub x y => formRegReg 0x8#4 x y 0x5#4
  | .shr x y => formRegReg 0x8#4 x y 0x6#4
  | .subn x y => formRegReg 0x8#4 x y 0x7#4
  | .shl x y => formRegReg 0x8#4 x y 0xE#4
  | .sneReg x y => formRegReg 0x9#4 x y 0x0#4
  | .ldI nnn => formAddr 0xA#4 nnn
  | .jpV0 nnn => formAddr 0xB#4 nnn
  | .rnd x nn => formRegImm 0xC#4 x nn
  | .drw x y n => formRegReg 0xD#4 x y (BitVec.ofNat 4 n)
  | .skp x => formRegImm 0xE#4 x 0x9E#8
  | .sknp x => formRegImm 0xE#4 x 0xA1#8
  | .ldVxDt x => formRegImm 0xF#4 x 0x07#8
  | .ldVxK x => formRegImm 0xF#4 x 0x0A#8
  | .ldDtVx x => formRegImm 0xF#4 x 0x15#8
  | .ldStVx x => formRegImm 0xF#4 x 0x18#8
  | .addI x => formRegImm 0xF#4 x 0x1E#8
  | .ldF x => formRegImm 0xF#4 x 0x29#8
  | .ldB x => formRegImm 0xF#4 x 0x33#8
  | .stRegs x => formRegImm 0xF#4 x 0x55#8
  | .ldRegs x => formRegImm 0xF#4 x 0x65#8

/-- The bytes of an instruction in memory order (20_memory.md R45). -/
def encodeBytes (i : Instr) : List Byte := [highByte (encode i), lowByte (encode i)]

/-- One row of the opcode map: a word `w` selects the row exactly when `w AND mask == pattern` (30_encoding.md R66). -/
structure OpcodeRow where
  mnemonic : String
  pattern : Word
  mask : Word
deriving DecidableEq, Repr

/-- Whether a word selects a row (30_encoding.md R66). -/
def rowMatches (r : OpcodeRow) (w : Word) : Bool := w &&& r.mask == r.pattern

/-- Rows 1 to 19 of 30_encoding.md R66. -/
def opcodeMapLow : List OpcodeRow :=
  [ ⟨"CLS", 0x00E0#16, 0xFFFF#16⟩,
    ⟨"RET", 0x00EE#16, 0xFFFF#16⟩,
    ⟨"JP", 0x1000#16, 0xF000#16⟩,
    ⟨"CALL", 0x2000#16, 0xF000#16⟩,
    ⟨"SE_IMM", 0x3000#16, 0xF000#16⟩,
    ⟨"SNE_IMM", 0x4000#16, 0xF000#16⟩,
    ⟨"SE_REG", 0x5000#16, 0xF00F#16⟩,
    ⟨"LD_IMM", 0x6000#16, 0xF000#16⟩,
    ⟨"ADD_IMM", 0x7000#16, 0xF000#16⟩,
    ⟨"LD_REG", 0x8000#16, 0xF00F#16⟩,
    ⟨"OR", 0x8001#16, 0xF00F#16⟩,
    ⟨"AND", 0x8002#16, 0xF00F#16⟩,
    ⟨"XOR", 0x8003#16, 0xF00F#16⟩,
    ⟨"ADD_REG", 0x8004#16, 0xF00F#16⟩,
    ⟨"SUB", 0x8005#16, 0xF00F#16⟩,
    ⟨"SHR", 0x8006#16, 0xF00F#16⟩,
    ⟨"SUBN", 0x8007#16, 0xF00F#16⟩,
    ⟨"SHL", 0x800E#16, 0xF00F#16⟩,
    ⟨"SNE_REG", 0x9000#16, 0xF00F#16⟩ ]

/-- Rows 20 to 34 of 30_encoding.md R66. -/
def opcodeMapHigh : List OpcodeRow :=
  [ ⟨"LD_I", 0xA000#16, 0xF000#16⟩,
    ⟨"JP_V0", 0xB000#16, 0xF000#16⟩,
    ⟨"RND", 0xC000#16, 0xF000#16⟩,
    ⟨"DRW", 0xD000#16, 0xF000#16⟩,
    ⟨"SKP", 0xE09E#16, 0xF0FF#16⟩,
    ⟨"SKNP", 0xE0A1#16, 0xF0FF#16⟩,
    ⟨"LD_VX_DT", 0xF007#16, 0xF0FF#16⟩,
    ⟨"LD_VX_K", 0xF00A#16, 0xF0FF#16⟩,
    ⟨"LD_DT_VX", 0xF015#16, 0xF0FF#16⟩,
    ⟨"LD_ST_VX", 0xF018#16, 0xF0FF#16⟩,
    ⟨"ADD_I", 0xF01E#16, 0xF0FF#16⟩,
    ⟨"LD_F", 0xF029#16, 0xF0FF#16⟩,
    ⟨"LD_B", 0xF033#16, 0xF0FF#16⟩,
    ⟨"ST_REGS", 0xF055#16, 0xF0FF#16⟩,
    ⟨"LD_REGS", 0xF065#16, 0xF0FF#16⟩ ]

/-- The opcode map of 30_encoding.md R66, one row per instruction. -/
def opcodeMap : List OpcodeRow := opcodeMapLow ++ opcodeMapHigh

/-- The row of an instruction in the opcode map, by its position in 30_encoding.md R66 counted from 0. -/
def rowIndex : Instr → Nat
  | .cls => 0
  | .ret => 1
  | .jp _ => 2
  | .call _ => 3
  | .seImm _ _ => 4
  | .sneImm _ _ => 5
  | .seReg _ _ => 6
  | .ldImm _ _ => 7
  | .addImm _ _ => 8
  | .ldReg _ _ => 9
  | .orReg _ _ => 10
  | .andReg _ _ => 11
  | .xorReg _ _ => 12
  | .addReg _ _ => 13
  | .sub _ _ => 14
  | .shr _ _ => 15
  | .subn _ _ => 16
  | .shl _ _ => 17
  | .sneReg _ _ => 18
  | .ldI _ => 19
  | .jpV0 _ => 20
  | .rnd _ _ => 21
  | .drw _ _ _ => 22
  | .skp _ => 23
  | .sknp _ => 24
  | .ldVxDt _ => 25
  | .ldVxK _ => 26
  | .ldDtVx _ => 27
  | .ldStVx _ => 28
  | .addI _ => 29
  | .ldF _ => 30
  | .ldB _ => 31
  | .stRegs _ => 32
  | .ldRegs _ => 33

/-- The word of a table entry of `nbits` bits: the bits at and above `nbits` are zero. -/
def tableWord (nbits w : Nat) : Word := BitVec.ofNat 16 (w % 2 ^ nbits)

/-- What the decoder reads from an instruction whose bits are `w`, numbered as spec/opcode_table.json numbers them: the
word is laid out in memory order, high byte first, and given to the byte decoder. -/
def decodeTableWord (nbits w : Nat) : Option Instr :=
  match decodeBytes [highByte (tableWord nbits w), lowByte (tableWord nbits w)] with
  | .ok (i, _) => some i
  | .error _ => none

end Sys2Proof
end

