-- ==== Sys2Proof/Machine/State.lean ====
section
/-!
DEFINITION. The state of the chipper CORE (spec/10_state.md R10), the fault record (60_exceptions.md R171, R172), the
step outputs (40_step_cycle.md R89, R90), and construction (10_state.md R28, 70_reset_and_hazards.md R200).
-/

namespace Sys2Proof.Machine

/-- The `kind` of a `MemoryFault` (60_exceptions.md R171). -/
inductive AccessKind where
  /-- The 2-byte instruction fetch. -/
  | fetch
  /-- A data read: `DXYN`, `FX65`. -/
  | read
  /-- A data write: `FX33`, `FX55`. -/
  | write
deriving DecidableEq, Repr

/-- The five fault causes with the info each records (60_exceptions.md R171). -/
inductive FaultCause where
  /-- An accessed address is at or above `RAM_SIZE`; `addr` is the lowest such address of the access (R173). -/
  | memoryFault (kind : AccessKind) (addr : Nat)
  /-- `2NNN` with `SP == STACK_DEPTH`; the value that was to be pushed (R175). -/
  | stackOverflow (value : Word)
  /-- `00EE` with `SP == 0` (R176). -/
  | stackUnderflow
  /-- `DXYN`: a set sprite bit lands at row `>= 32` or column `>= 64` (R174). -/
  | displayFault (row col : Nat)
  /-- `EX9E`, `EXA1` with `V[X] >= 16`; the value of `V[X]` (R177). -/
  | keyIndexFault (value : Nat)
deriving DecidableEq, Repr

/-- The numeric code of a cause (60_exceptions.md R171). -/
def FaultCause.code : FaultCause → Nat
  | .memoryFault _ _ => 1
  | .stackOverflow _ => 2
  | .stackUnderflow => 3
  | .displayFault _ _ => 4
  | .keyIndexFault _ => 5

/-- The record that `raise` latches (10_state.md R26, 60_exceptions.md R172). -/
structure FaultRecord where
  /-- The cause, with its info. -/
  cause : FaultCause
  /-- `PC` at the start of the step: the address of the faulting instruction. -/
  pc : Word
  /-- The fetched instruction word, or none when the fetch itself faulted. -/
  word : Option Word
deriving DecidableEq, Repr

/-- Memory as the list of the bytes that differ from what the address holds after construction, by rising address. -/
abbrev Memory := List Host.Cell

/-- The whole machine state (10_state.md R10), the parameters it was constructed with, and the model's own counter of
random bytes drawn. -/
structure State where
  /-- The parameters, fixed at construction (00_scope.md R5): no step and no host operation writes them. -/
  config : Config
  /-- `V[0..15]` (10_state.md R11); `V[15]` is the flag register `VF` (R12). -/
  v : Vector Byte 16
  /-- The index register `I`, all 16 bits (10_state.md R13). -/
  i : Word
  /-- The program counter `PC` (10_state.md R14). -/
  pc : Word
  /-- `stack[0..STACK_DEPTH-1]`, stale slots included (10_state.md R16). -/
  stack : List Word
  /-- `SP`, the number of return addresses held (10_state.md R16). -/
  sp : Nat
  /-- The delay timer `DT` (10_state.md R19). -/
  dt : Byte
  /-- The sound timer `ST` (10_state.md R19). -/
  st : Byte
  /-- `memory` (10_state.md R20), in its canonical form. -/
  memory : Memory
  /-- `display[row][column]`, `true` for 1 (10_state.md R21). -/
  display : Vector (Vector Bool 64) 32
  /-- `key[0..15]`, `true` while pressed (10_state.md R23). -/
  key : Vector Bool 16
  /-- The redraw flag (10_state.md R25). -/
  redraw : Bool
  /-- The fault latch (10_state.md R26). -/
  fault : Option FaultRecord
  /-- The MODEL's own: how many random bytes have been drawn, the index of the next one (log entry 4). -/
  randDraws : Nat
deriving DecidableEq, Repr

/-- The reasons a step can stop outside the state the spec describes: there are none, so the type is empty. Every fault
of the spec is a NEXT state with the latch `State.fault` written (60_exceptions.md R172, log entry 5), which is safe:
nothing is left out. -/
inductive Fault where
deriving DecidableEq, Repr

/-- The reasons an instruction can be without a meaning. -/
inductive Refusal where
  /-- Raised only by an arm of `exec` whose instruction has no meaning yet; safe. No arm is such an arm. -/
  | notModelled (mnemonic : String)
deriving DecidableEq, Repr

/-- The step output `status` (40_step_cycle.md R90). It is an output of one step, not state (10_state.md R27 (c)). -/
inductive Status where
  /-- An instruction other than a no-key `FX0A` executed without fault. -/
  | advanced
  /-- `FX0A` found no key pressed. -/
  | blocked
  /-- `Decode(w) = Unknown`. -/
  | unknownOpcode (w : Word)
  /-- The step raised a fault, or the latch was already set. -/
  | faulted (r : FaultRecord)
deriving DecidableEq, Repr

/-- The two outputs of a step (40_step_cycle.md R86). -/
structure StepOutput where
  status : Status
  soundEvent : Bool
deriving DecidableEq, Repr

/-- The cleared display: every cell 0 (10_state.md R28). -/
def blankDisplay : Vector (Vector Bool 64) 32 := Vector.replicate 32 (Vector.replicate 64 false)

/-- Construction with a configuration (40_step_cycle.md R97, 70_reset_and_hazards.md R200): every field at the value of
the table in 10_state.md R28. Memory lists nothing: the font and the zeros are what unlisted addresses read as. -/
def State.construct (c : Config) : State :=
  { config := c
    v := Vector.replicate 16 0
    i := 0
    pc := 0x0200
    stack := List.replicate c.stackDepth 0
    sp := 0
    dt := 0
    st := 0
    memory := []
    display := blankDisplay
    key := Vector.replicate 16 false
    redraw := false
    fault := none
    randDraws := 0 }

/-- The machine right after reset, constructed with the customary configuration (log entries 1, 2, 3). -/
def State.reset : State := State.construct Config.customary

end Sys2Proof.Machine
end

