-- ==== Sys2Proof/Machine/Ops.lean ====
section
/-!
DEFINITION. The named operations of the chipper CORE: register access, memory (spec/20_memory.md R42 to R44), the stack
(10_state.md R17, R18), the display cells (R22), the key latch (R24), entering a fault (60_exceptions.md R172), ending an
execute phase (40_step_cycle.md R84, R86) and the tick (R88). There is no return from a fault (60_exceptions.md R179).
-/

namespace Sys2Proof.Machine

/-! ### Registers -/

/-- `V[r]` read (00_scope.md R9). -/
def State.getV (s : State) (r : Reg) : Byte := s.v[r.val]

/-- `V[r] <- b` (00_scope.md R9). -/
def State.setV (s : State) (r : Reg) (b : Byte) : State := { s with v := s.v.set r.val b }

/-- `I <- w`. -/
def State.setI (s : State) (w : Word) : State := { s with i := w }

/-- `PC <- w`. -/
def State.setPc (s : State) (w : Word) : State := { s with pc := w }

/-- `PC <- (PC + 2) mod 65536`, the advance of a non-branching instruction (10_state.md R15). -/
def State.advance (s : State) : State := s.setPc (s.pc + 2)

/-- `PC <- (PC + (c ? 4 : 2)) mod 65536`, the advance of a skip (10_state.md R15, 42_skip.md R116). -/
def State.skipIf (s : State) (c : Bool) : State := s.setPc (s.pc + if c then 4 else 2)

/-- `DT <- b`. -/
def State.setDt (s : State) (b : Byte) : State := { s with dt := b }

/-- `ST <- b`. -/
def State.setSt (s : State) (b : Byte) : State := { s with st := b }

/-- `redraw <- true`, the document's `RaiseRedraw()` (10_state.md R25). -/
def State.raiseRedraw (s : State) : State := { s with redraw := true }

/-- The random byte of this draw, and the state in which the next draw is a fresh one (40_step_cycle.md R91). -/
def State.drawRandom (s : State) : Byte × State :=
  (Config.randByte s.randDraws, { s with randDraws := s.randDraws + 1 })

/-! ### Memory -/

/-- The byte that the list holds at `a`, or what the unlisted address reads as. -/
def Memory.read (c : Config) : Memory → Nat → Byte
  | [], a => c.initByte a
  | (b, x) :: m, a => if b = a then x else Memory.read c m a

/-- The list without an entry at `a`. -/
def Memory.erase : Memory → Nat → Memory
  | [], _ => []
  | (b, x) :: m, a => if b = a then Memory.erase m a else (b, x) :: Memory.erase m a

/-- The list with an entry put before the first higher address. -/
def Memory.insert : Memory → Nat → Byte → Memory
  | [], a, x => [(a, x)]
  | (b, y) :: m, a, x => if a < b then (a, x) :: (b, y) :: m else (b, y) :: Memory.insert m a x

/-- The list after a write of `x` at `a`: no entry when `x` is what the unlisted address reads as. -/
def Memory.write (c : Config) (m : Memory) (a : Nat) (x : Byte) : Memory :=
  if x = c.initByte a then Memory.erase m a else Memory.insert (Memory.erase m a) a x

/-- The addresses of the list rise strictly, all of them above every address named before. -/
def Memory.rising : Memory → Bool
  | [] => true
  | [_] => true
  | (a, _) :: (b, y) :: m => decide (a < b) && Memory.rising ((b, y) :: m)

/-- The canonical form: addresses strictly rising, each below `RAM_SIZE`, no entry equal to what the unlisted address
reads as. -/
def Memory.wf (c : Config) (m : Memory) : Bool :=
  Memory.rising m && m.all fun cell => decide (cell.1 < c.ramSize) && decide (cell.2 ≠ c.initByte cell.1)

/-- `memory[a]`, whether or not `a` is in range. -/
def State.byteAt (s : State) (a : Nat) : Byte := Memory.read s.config s.memory a

/-- `memory[a] <- x`, whether or not `a` is in range. -/
def State.setByte (s : State) (a : Nat) (x : Byte) : State :=
  { s with memory := Memory.write s.config s.memory a x }

/-- The fault of an access of the given kind that starts at `a` (20_memory.md R42: the lowest out-of-range address of
the access). -/
def memoryFaultAt (s : State) (kind : AccessKind) (a : Nat) : FaultCause :=
  .memoryFault kind (max a s.config.ramSize)

/-- `MemRead(a, 1)` (20_memory.md R42). -/
def memRead (s : State) (a : Nat) : Except FaultCause Byte :=
  if a ≥ s.config.ramSize then .error (memoryFaultAt s .read a) else .ok (s.byteAt a)

/-- `MemWrite(a, 1, x)` (20_memory.md R43). -/
def memWrite (s : State) (a : Nat) (x : Byte) : Except FaultCause State :=
  if a ≥ s.config.ramSize then .error (memoryFaultAt s .write a) else .ok (s.setByte a x)

/-- `MemRead(PC, 2)`: the fetch, one big-endian access (20_memory.md R42, R44, R45). -/
def fetch (s : State) : Except FaultCause Word :=
  if s.pc.toNat + 1 ≥ s.config.ramSize then .error (memoryFaultAt s .fetch s.pc.toNat)
  else .ok (wordOfBytes (s.byteAt s.pc.toNat) (s.byteAt (s.pc.toNat + 1)))

/-! ### The return stack -/

/-- `Push(w)` (10_state.md R17). -/
def push (s : State) (w : Word) : Except FaultCause State :=
  if s.sp ≥ s.config.stackDepth then .error (.stackOverflow w)
  else .ok { s with stack := s.stack.set s.sp w, sp := s.sp + 1 }

/-- `Pop()` (10_state.md R18). The popped slot keeps its value. The stack has `STACK_DEPTH` slots and `SP` is at most
that in every reachable state, so the slot read exists there. -/
def pop (s : State) : Except FaultCause (Word × State) :=
  if s.sp = 0 then .error .stackUnderflow
  else .ok (s.stack.getD (s.sp - 1) 0, { s with sp := s.sp - 1 })

/-! ### Display and keys -/

/-- `display[r][c]`, and 0 outside the grid. -/
def State.cell (s : State) (r c : Nat) : Bool :=
  if h : r < 32 ∧ c < 64 then (s.display[r]'h.1)[c]'h.2 else false

/-- `display[r][c] <- b`, and nothing outside the grid. -/
def State.setCell (s : State) (r c : Nat) (b : Bool) : State :=
  if h : r < 32 ∧ c < 64 then
    { s with display := s.display.set r ((s.display[r]'h.1).set c b h.2) h.1 }
  else s

/-- Whether `DispRead` and `DispWrite` reject the coordinates, each checked by itself (10_state.md R22). -/
def offGrid (r c : Nat) : Bool := decide (r ≥ 32) || decide (c ≥ 64)

/-- `DispRead(r, c)` (10_state.md R22). -/
def dispRead (s : State) (r c : Nat) : Except FaultCause Bool :=
  if offGrid r c then .error (.displayFault r c) else .ok (s.cell r c)

/-- `DispWrite(r, c, b)` (10_state.md R22). -/
def dispWrite (s : State) (r c : Nat) (b : Bool) : Except FaultCause State :=
  if offGrid r c then .error (.displayFault r c) else .ok (s.setCell r c b)

/-- Every cell 0 (45_display.md R150). -/
def State.clearDisplay (s : State) : State := { s with display := blankDisplay }

/-- The boolean of key `k`, for an index within the latch. -/
def State.keyAt (s : State) (k : Reg) : Bool := s.key[k.val]

/-- `Key(k)` (10_state.md R24): the whole value is the index, not masked. -/
def keyRead (s : State) (k : Nat) : Except FaultCause Bool :=
  if h : k < 16 then .ok (s.keyAt ⟨k, h⟩) else .error (.keyIndexFault k)

/-! ### Faults and the end of the execute phase -/

/-- `raise F(info)` (60_exceptions.md R172), applied to the state as it was when the step began: nothing changes but the
latch, which records the cause, the `PC` of the faulting instruction and the fetched word. -/
def raiseFault (s : State) (cause : FaultCause) (word : Option Word) : State :=
  { s with fault := some { cause := cause, pc := s.pc, word := word } }

/-- The end of an instruction's execute phase: its writes, or, when it raised, the fault entered from the state `s` in
which it began, so that a faulting instruction has no partial effect (40_step_cycle.md R86). -/
def complete (i : Instr) (s : State) (r : Except FaultCause State) : Host.Outcome State Fault Refusal :=
  match r with
  | .ok t => .next t
  | .error cause => .next (raiseFault s cause (some (encode i)))

/-! ### The tick -/

/-- One timer's decrement: by 1 when it is nonzero (40_step_cycle.md R88). -/
def countDown (b : Byte) : Byte := if b = 0 then 0 else b - 1

/-- The state change of `Tick()` (40_step_cycle.md R88). -/
def tick (s : State) : State := { s with dt := countDown s.dt, st := countDown s.st }

/-- The value `Tick()` returns: whether it found `ST == 1` (40_step_cycle.md R88, R89). -/
def tickSound (s : State) : Bool := s.st == 1

end Sys2Proof.Machine
end

