-- ==== Sys2Proof/Machine/Operands.lean ====
section
/-!
DEFINITION. The operand forms of the chipper CORE (spec/30_encoding.md R63): register operands, zero-extended literals
and bytes, the one data addressing mode `I + k` (20_memory.md R54), and the ranges `V[0..X]`.
-/

namespace Sys2Proof.Machine

/-- `zext_16(NNN)`: the address literal as `PC` and `I` hold it (30_encoding.md R63). -/
def zextAddr (nnn : Addr) : Word := nnn.setWidth 16

/-- A byte as a 16-bit value, extended with zeros (00_scope.md R8). -/
def zextByte (b : Byte) : Word := b.setWidth 16

/-- The effective address `I + k`, a natural number that is never reduced (20_memory.md R54). -/
def State.effAddr (s : State) (k : Nat) : Nat := s.i.toNat + k

/-- The register indices `0 .. x` in ascending order: the operand `V[0..X]` of `FX55` and `FX65`
(30_encoding.md R63). -/
def regsUpTo (x : Reg) : List Reg := (List.finRange 16).filter fun k => decide (k ≤ x)

/-- The key indices in ascending order (46_timer_key.md R164). -/
def keyIndices : List Reg := List.finRange 16

/-- Bit `i` of a sprite row, counted from the most significant: `row[7 - i]` (45_display.md R151). -/
def spriteBit (row : Byte) (i : Nat) : Bool := row.getLsbD (7 - i)

/-- The hundreds digit (44_index_memory.md R143). -/
def hundreds (b : Byte) : Byte := BitVec.ofNat 8 (b.toNat / 100)

/-- The tens digit (44_index_memory.md R143). -/
def tens (b : Byte) : Byte := BitVec.ofNat 8 (b.toNat / 10 % 10)

/-- The ones digit (44_index_memory.md R143). -/
def ones (b : Byte) : Byte := BitVec.ofNat 8 (b.toNat % 10)

end Sys2Proof.Machine
end

