-- ==== Sys2Proof/Machine/Flags.lean ====
section
/-!
DEFINITION. Every flag computation of the chipper CORE (spec/10_state.md R12, 43_alu.md R120, R121). A flag is exactly
`0x00` or `0x01` in all eight bits of `VF`.
-/

namespace Sys2Proof.Machine

/-- A flag's value in the register: `0x01` when it holds, else `0x00` (10_state.md R12). -/
def flagByte (c : Bool) : Byte := if c then 1 else 0

/-- `8XY4`: the carry out of the sum of natural numbers (43_alu.md R128). -/
def carryFlag (a b : Byte) : Byte := flagByte (decide (a.toNat + b.toNat > 255))

/-- `8XY5`, `8XY7`: 1 when the minuend `a` is at least the subtrahend `b`, so no borrow is needed (43_alu.md R129,
R131). -/
def noBorrowFlag (a b : Byte) : Byte := flagByte (!decide (b.toNat > a.toNat))

/-- `8XY6`: the bit shifted out at the bottom (43_alu.md R130). -/
def lowBitFlag (a : Byte) : Byte := a &&& 1

/-- `8XYE`: the bit shifted out at the top (43_alu.md R132). -/
def highBitFlag (a : Byte) : Byte := (a >>> 7) &&& 1

/-- `FX1E`: whether the sum of natural numbers exceeds `0xFFF` (44_index_memory.md R141). -/
def indexFlag (i : Word) (b : Byte) : Byte := flagByte (decide (i.toNat + b.toNat > 0xFFF))

/-- The write of a flag into `VF` (43_alu.md R121: it stands before the result's write). -/
def State.setFlag (s : State) (f : Byte) : State := s.setV flagReg f

end Sys2Proof.Machine
end

