-- ==== Sys2Proof/Machine/Alu.lean ====
section
/-!
DEFINITION. Register loads, the 8-bit ALU and the random byte (spec/43_alu.md). Where an instruction writes `VF` as a
flag, the flag is written first and the result is computed from the registers as they are then (R121, R133).
-/

namespace Sys2Proof.Machine

/-- `6XNN` (R122). -/
def execLdImm (x : Reg) (nn : Byte) (s : State) : Host.Outcome State Fault Refusal :=
  complete (.ldImm x nn) s (.ok (s.setV x nn).advance)

/-- `7XNN` (R123): no flag. -/
def execAddImm (x : Reg) (nn : Byte) (s : State) : Host.Outcome State Fault Refusal :=
  complete (.addImm x nn) s (.ok (s.setV x (s.getV x + nn)).advance)

/-- `8XY0` (R124). -/
def execLdReg (x y : Reg) (s : State) : Host.Outcome State Fault Refusal :=
  complete (.ldReg x y) s (.ok (s.setV x (s.getV y)).advance)

/-- `8XY1` (R125). -/
def execOrReg (x y : Reg) (s : State) : Host.Outcome State Fault Refusal :=
  complete (.orReg x y) s (.ok (s.setV x (s.getV x ||| s.getV y)).advance)

/-- `8XY2` (R126). -/
def execAndReg (x y : Reg) (s : State) : Host.Outcome State Fault Refusal :=
  complete (.andReg x y) s (.ok (s.setV x (s.getV x &&& s.getV y)).advance)

/-- `8XY3` (R127). -/
def execXorReg (x y : Reg) (s : State) : Host.Outcome State Fault Refusal :=
  complete (.xorReg x y) s (.ok (s.setV x (s.getV x ^^^ s.getV y)).advance)

/-- `8XY4` (R128). -/
def execAddReg (x y : Reg) (s : State) : Host.Outcome State Fault Refusal :=
  let t := s.setFlag (carryFlag (s.getV x) (s.getV y))
  complete (.addReg x y) s (.ok (t.setV x (t.getV x + t.getV y)).advance)

/-- `8XY5` (R129). -/
def execSub (x y : Reg) (s : State) : Host.Outcome State Fault Refusal :=
  let t := s.setFlag (noBorrowFlag (s.getV x) (s.getV y))
  complete (.sub x y) s (.ok (t.setV x (t.getV x - t.getV y)).advance)

/-- `8XY6` (R130): the source is `V[X]`; `y` is ignored. -/
def execShr (x y : Reg) (s : State) : Host.Outcome State Fault Refusal :=
  let t := s.setFlag (lowBitFlag (s.getV x))
  complete (.shr x y) s (.ok (t.setV x (t.getV x >>> 1)).advance)

/-- `8XY7` (R131). -/
def execSubn (x y : Reg) (s : State) : Host.Outcome State Fault Refusal :=
  let t := s.setFlag (noBorrowFlag (s.getV y) (s.getV x))
  complete (.subn x y) s (.ok (t.setV x (t.getV y - t.getV x)).advance)

/-- `8XYE` (R132): the source is `V[X]`; `y` is ignored. -/
def execShl (x y : Reg) (s : State) : Host.Outcome State Fault Refusal :=
  let t := s.setFlag (highBitFlag (s.getV x))
  complete (.shl x y) s (.ok (t.setV x (t.getV x <<< 1)).advance)

/-- `CXNN` (R134): each execution consumes a new random byte. -/
def execRnd (x : Reg) (nn : Byte) (s : State) : Host.Outcome State Fault Refusal :=
  complete (.rnd x nn) s (.ok ((s.drawRandom.2).setV x (s.drawRandom.1 &&& nn)).advance)

end Sys2Proof.Machine
end

