-- ==== Sys2Proof/Machine/ControlFlow.lean ====
section
/-!
DEFINITION. Control transfer: `RET`, `JP`, `CALL`, `JP_V0` (spec/41_control_flow.md). No target is checked when `PC` is
written (R104).
-/

namespace Sys2Proof.Machine

/-- `00EE` (R100): the popped address plus 2. -/
def execRet (s : State) : Host.Outcome State Fault Refusal :=
  complete .ret s <|
    match pop s with
    | .ok (a, t) => .ok (t.setPc (a + 2))
    | .error e => .error e

/-- `1NNN` (R101). -/
def execJp (nnn : Addr) (s : State) : Host.Outcome State Fault Refusal :=
  complete (.jp nnn) s (.ok (s.setPc (zextAddr nnn)))

/-- `2NNN` (R102): the value pushed is the address of this instruction. -/
def execCall (nnn : Addr) (s : State) : Host.Outcome State Fault Refusal :=
  complete (.call nnn) s <|
    match push s s.pc with
    | .ok t => .ok (t.setPc (zextAddr nnn))
    | .error e => .error e

/-- `BNNN` (R103): the sum is not reduced to 12 bits. -/
def execJpV0 (nnn : Addr) (s : State) : Host.Outcome State Fault Refusal :=
  complete (.jpV0 nnn) s (.ok (s.setPc (zextAddr nnn + zextByte (s.getV 0))))

end Sys2Proof.Machine
end

