-- ==== Sys2Proof/Machine/Display.lean ====
section
/-!
DEFINITION. Clearing the display and the sprite compositor (spec/45_display.md).
-/

namespace Sys2Proof.Machine

/-- `00E0` (R150): `redraw` is raised even if the display was already clear. -/
def execCls (s : State) : Host.Outcome State Fault Refusal :=
  complete .cls s (.ok s.clearDisplay.raiseRedraw.advance)

/-- One set bit of a sprite lands on the cell at `r`, `c`: the collision flag, then the exclusive OR with 1 (R151). -/
def toggleCell (r c : Nat) (s : State) : Except FaultCause State :=
  match dispRead s r c with
  | .error e => .error e
  | .ok old => dispWrite (if old then s.setFlag 1 else s) r c (!old)

/-- The pixels `is` of one sprite row, in order, at display row `r` from column `x`: a 0 bit touches no cell (R151). -/
def drawRow (row : Byte) (r x : Nat) : List Nat → State → Except FaultCause State
  | [], s => .ok s
  | i :: is, s =>
    if spriteBit row i then
      match toggleCell r (x + i) s with
      | .ok t => drawRow row r x is t
      | .error e => .error e
    else drawRow row r x is s

/-- The rows `js` of a sprite, in order: each row's byte is read before that row's cells (R151, 60_exceptions.md
R178). -/
def drawRows (x y : Nat) : List Nat → State → Except FaultCause State
  | [], s => .ok s
  | j :: js, s =>
    match memRead s (s.effAddr j) with
    | .error e => .error e
    | .ok row =>
      match drawRow row (y + j) x (List.range 8) s with
      | .ok t => drawRows x y js t
      | .error e => .error e

/-- `DXYN` (R151): both coordinates are latched before `VF` is reset. -/
def execDrw (x y : Reg) (n : Nat) (s : State) : Host.Outcome State Fault Refusal :=
  complete (.drw x y n) s <|
    match drawRows (s.getV x).toNat (s.getV y).toNat (List.range n) (s.setFlag 0) with
    | .ok t => .ok t.raiseRedraw.advance
    | .error e => .error e

end Sys2Proof.Machine
end

