-- ==== Sys2Proof/Machine/IndexMemory.lean ====
section
/-!
DEFINITION. The index register and the memory transfers (spec/44_index_memory.md). The effective address is `I + k` with
the entry value of `I` (R146); a range fault anywhere in a transfer undoes all of it (40_step_cycle.md R86).
-/

namespace Sys2Proof.Machine

/-- `ANNN` (R140). -/
def execLdI (nnn : Addr) (s : State) : Host.Outcome State Fault Refusal :=
  complete (.ldI nnn) s (.ok (s.setI (zextAddr nnn)).advance)

/-- `FX1E` (R141): the flag is written first, and `V[X]` is read again after it. -/
def execAddI (x : Reg) (s : State) : Host.Outcome State Fault Refusal :=
  let t := s.setFlag (indexFlag s.i (s.getV x))
  complete (.addI x) s (.ok (t.setI (t.i + zextByte (t.getV x))).advance)

/-- `FX29` (R142): the whole byte is multiplied. -/
def execLdF (x : Reg) (s : State) : Host.Outcome State Fault Refusal :=
  complete (.ldF x) s (.ok (s.setI (BitVec.ofNat 16 ((s.getV x).toNat * 5))).advance)

/-- The bytes stored one after another at ascending addresses from `a`, in order, stopping at the first that is out of
range. -/
def storeBytes (a : Nat) : List Byte → State → Except FaultCause State
  | [], s => .ok s
  | b :: bs, s =>
    match memWrite s a b with
    | .ok t => storeBytes (a + 1) bs t
    | .error e => .error e

/-- The registers loaded one after another from ascending addresses from `a`, in order, stopping at the first address
that is out of range. -/
def loadRegs (a : Nat) : List Reg → State → Except FaultCause State
  | [], s => .ok s
  | k :: ks, s =>
    match memRead s a with
    | .ok b => loadRegs (a + 1) ks (s.setV k b)
    | .error e => .error e

/-- `FX33` (R143): hundreds, tens and ones at `I`, `I + 1`, `I + 2`. -/
def execLdB (x : Reg) (s : State) : Host.Outcome State Fault Refusal :=
  complete (.ldB x) s <|
    match storeBytes (s.effAddr 0) [hundreds (s.getV x), tens (s.getV x), ones (s.getV x)] s with
    | .ok t => .ok t.advance
    | .error e => .error e

/-- `FX55` (R144): `V[0..X]` to ascending addresses from `I`, and then `I` is the number `X + 1`. -/
def execStRegs (x : Reg) (s : State) : Host.Outcome State Fault Refusal :=
  complete (.stRegs x) s <|
    match storeBytes (s.effAddr 0) ((regsUpTo x).map s.getV) s with
    | .ok t => .ok (t.setI (BitVec.ofNat 16 (x.val + 1))).advance
    | .error e => .error e

/-- `FX65` (R145): `V[0..X]` from ascending addresses from `I`, and then `I` is the number `X + 1`. -/
def execLdRegs (x : Reg) (s : State) : Host.Outcome State Fault Refusal :=
  complete (.ldRegs x) s <|
    match loadRegs (s.effAddr 0) (regsUpTo x) s with
    | .ok t => .ok (t.setI (BitVec.ofNat 16 (x.val + 1))).advance
    | .error e => .error e

end Sys2Proof.Machine
end

