-- ==== Sys2Proof/Machine/Skip.lean ====
section
/-!
DEFINITION. The conditional skips (spec/42_skip.md): each writes `PC` and nothing else (R116).
-/

namespace Sys2Proof.Machine

/-- `3XNN` (R110). -/
def execSeImm (x : Reg) (nn : Byte) (s : State) : Host.Outcome State Fault Refusal :=
  complete (.seImm x nn) s (.ok (s.skipIf (s.getV x == nn)))

/-- `4XNN` (R111). -/
def execSneImm (x : Reg) (nn : Byte) (s : State) : Host.Outcome State Fault Refusal :=
  complete (.sneImm x nn) s (.ok (s.skipIf (s.getV x != nn)))

/-- `5XY0` (R112). -/
def execSeReg (x y : Reg) (s : State) : Host.Outcome State Fault Refusal :=
  complete (.seReg x y) s (.ok (s.skipIf (s.getV x == s.getV y)))

/-- `9XY0` (R113). -/
def execSneReg (x y : Reg) (s : State) : Host.Outcome State Fault Refusal :=
  complete (.sneReg x y) s (.ok (s.skipIf (s.getV x != s.getV y)))

/-- `EX9E` (R114). -/
def execSkp (x : Reg) (s : State) : Host.Outcome State Fault Refusal :=
  complete (.skp x) s <|
    match keyRead s (s.getV x).toNat with
    | .ok k => .ok (s.skipIf k)
    | .error e => .error e

/-- `EXA1` (R115). -/
def execSknp (x : Reg) (s : State) : Host.Outcome State Fault Refusal :=
  complete (.sknp x) s <|
    match keyRead s (s.getV x).toNat with
    | .ok k => .ok (s.skipIf (!k))
    | .error e => .error e

end Sys2Proof.Machine
end

