-- ==== Sys2Proof/Machine/TimerKey.lean ====
section
/-!
DEFINITION. Timer access and the key wait (spec/46_timer_key.md). The tick follows in the same step.
-/

namespace Sys2Proof.Machine

/-- `FX07` (R160). -/
def execLdVxDt (x : Reg) (s : State) : Host.Outcome State Fault Refusal :=
  complete (.ldVxDt x) s (.ok (s.setV x s.dt).advance)

/-- `FX15` (R161). -/
def execLdDtVx (x : Reg) (s : State) : Host.Outcome State Fault Refusal :=
  complete (.ldDtVx x) s (.ok (s.setDt (s.getV x)).advance)

/-- `FX18` (R162). -/
def execLdStVx (x : Reg) (s : State) : Host.Outcome State Fault Refusal :=
  complete (.ldStVx x) s (.ok (s.setSt (s.getV x)).advance)

/-- The ascending scan of `FX0A` (R164): the last pressed index wins, none when no key is pressed. -/
def scanKeys (s : State) : List Reg → Option Reg → Option Reg
  | [], found => found
  | k :: ks, found => scanKeys s ks (if s.keyAt k then some k else found)

/-- The key that `FX0A` records: the highest-indexed pressed key (R164). -/
def pressedKey (s : State) : Option Reg := scanKeys s keyIndices none

/-- `FX0A` (R164): with no key pressed the execute phase writes nothing, `PC` included. -/
def execLdVxK (x : Reg) (s : State) : Host.Outcome State Fault Refusal :=
  complete (.ldVxK x) s <|
    match pressedKey s with
    | some k => .ok (s.setV x (BitVec.ofNat 8 k.val)).advance
    | none => .ok s

end Sys2Proof.Machine
end

