-- ==== Sys2Proof/Machine/Cycle.lean ====
section
/-!
DEFINITION. The step cycle (spec/40_step_cycle.md R80 to R91): fetch, decode, execute, tick, the outputs of a step, and
the end of a run (R98).
-/

namespace Sys2Proof.Machine

/-- Whether the fault latch is set (10_state.md R26). -/
def State.halted (s : State) : Bool := s.fault.isSome

/-- What follows the execute phase: the tick, unless the step raised a fault (R85, R86). The latch is clear when an
execute phase begins, so it is set at its end exactly when the instruction raised. -/
def finishStep (t : State) : State := if t.halted then t else tick t

/-- The execute phase and the tick of an instruction (R84, R85, R86). -/
def runInstr (i : Instr) (s : State) : Host.Outcome State Fault Refusal :=
  match exec i s with
  | .next t => .next (finishStep t)
  | .fault f => .fault f
  | .refused r => .refused r

/-- The unknown-opcode step (R87): the execute phase writes nothing, `PC` included, and the tick runs. -/
def unknownStep (s : State) : State := tick s

/-- One invocation of `Step()` (R86). -/
def cycle (s : State) : Host.Outcome State Fault Refusal :=
  match s.fault with
  | some _ => .next s
  | none =>
    match fetch s with
    | .error cause => .next (raiseFault s cause none)
    | .ok w =>
      match decode w with
      | .error _ => .next (unknownStep s)
      | .ok i => runInstr i s

/-- The `status` of an execute phase that raised nothing (R86, R90): `Blocked` for an `FX0A` that found no key, else
`Advanced`. -/
def executeStatus (i : Instr) (s : State) : Status :=
  match i with
  | .ldVxK _ => if (pressedKey s).isSome then .advanced else .blocked
  | .cls | .ret | .jp _ | .call _ | .seImm _ _ | .sneImm _ _ | .seReg _ _ | .ldImm _ _ | .addImm _ _
  | .ldReg _ _ | .orReg _ _ | .andReg _ _ | .xorReg _ _ | .addReg _ _ | .sub _ _ | .shr _ _ | .subn _ _
  | .shl _ _ | .sneReg _ _ | .ldI _ | .jpV0 _ | .rnd _ _ | .drw _ _ _ | .skp _ | .sknp _ | .ldVxDt _
  | .ldDtVx _ | .ldStVx _ | .addI _ | .ldF _ | .ldB _ | .stRegs _ | .ldRegs _ => .advanced

/-- The outputs of a step whose latch is set at its end: `Faulted`, and never a sound event (R86). -/
def faultedOutput (r : FaultRecord) : StepOutput := { status := .faulted r, soundEvent := false }

/-- The outputs of the step that runs instruction `i` (R86, R89, R90). -/
def instrOutput (i : Instr) (s : State) : StepOutput :=
  match exec i s with
  | .next t =>
    match t.fault with
    | some r => faultedOutput r
    | none => { status := executeStatus i s, soundEvent := tickSound t }
  | .fault _ => { status := executeStatus i s, soundEvent := false }
  | .refused _ => { status := executeStatus i s, soundEvent := false }

/-- The outputs `status` and `sound_event` of one invocation of `Step()` (R86, R89, R90). They are functions of the
state the step begins in; the state does not remember them (10_state.md R27). -/
def stepOutput (s : State) : StepOutput :=
  match s.fault with
  | some r => faultedOutput r
  | none =>
    match fetch s with
    | .error cause => faultedOutput { cause := cause, pc := s.pc, word := none }
    | .ok w =>
      match decode w with
      | .error _ => { status := .unknownOpcode w, soundEvent := tickSound s }
      | .ok i => instrOutput i s

/-- The instruction that the next step runs, if it runs one. -/
def currentInstr (s : State) : Option Instr :=
  match s.fault with
  | some _ => none
  | none =>
    match fetch s with
    | .error _ => none
    | .ok w =>
      match decode w with
      | .error _ => none
      | .ok i => some i

/-- The named self-jump of a finished program: no fault is latched, and the step at `PC = a` runs `1NNN` with `NNN` equal to
its own address `a` (R98). -/
def State.spinsAt (s : State) (a : Addr) : Bool := currentInstr s == some (.jp a) && s.pc == zextAddr a

/-- The end of a run of a program whose self-jump is at `a`: it spins there, or a fault has frozen the state (R98). The
machine has no halt instruction, so this is a predicate that claims use and no part of a step; that it is this one is a
DESIGN CHOICE, which R98 leaves to the model (log entry 24). -/
def State.runEnded (s : State) (a : Addr) : Bool := s.halted || s.spinsAt a

/-- The state with an instruction word placed where the next fetch reads it, high byte first (20_memory.md R45), and
the fault latch clear, without which no fetch happens. Where `PC` is not an address a fetch can read, memory is left as
it is. -/
def placeWord (s : State) (w : Word) : State :=
  if s.pc.toNat + 1 ≥ s.config.ramSize then { s with fault := none }
  else { (s.setByte s.pc.toNat (highByte w)).setByte (s.pc.toNat + 1) (lowByte w) with fault := none }

end Sys2Proof.Machine
end

