-- ==== Sys2Proof/Machine/Step.lean ====
section
/-!
DEFINITION. `Step()` (spec/40_step_cycle.md R86), and an instruction placed where the next step fetches.
-/

namespace Sys2Proof.Machine

/-- One invocation of `Step()`. -/
def step (s : State) : Host.Outcome State Fault Refusal := cycle s

/-- `s` with the instruction whose bits are `w`, numbered as spec/opcode_table.json numbers them, stored where `step`
fetches its next instruction. -/
def State.withFetchWord (s : State) (nbits w : Nat) : State := placeWord s (tableWord nbits w)

end Sys2Proof.Machine
end

