-- ==== Sys2Proof/Machine/HostOps.lean ====
section
/-!
DEFINITION. The host's operations between steps (spec/40_step_cycle.md R92 to R96). Each is one atomic transition and
works whether or not the fault latch is set (R92).
-/

namespace Sys2Proof.Machine

/-- `SetKey(index, pressed)` (R93): an index above 15 changes nothing. -/
def setKey (s : State) (k : Nat) (pressed : Bool) : State :=
  if h : k < 16 then { s with key := s.key.set k pressed h } else s

/-- `ReadDisplay()` (R94): the whole grid, indexed `[row][column]`. -/
def readDisplay (s : State) : Vector (Vector Bool 64) 32 := s.display

/-- `PollAndClearRedraw()` (R95): the flag, and the state with the flag cleared. -/
def pollAndClearRedraw (s : State) : Bool × State := (s.redraw, { s with redraw := false })

/-- The result of `LoadProgram` (R96). -/
inductive LoadResult where
  /-- The bytes are in memory. -/
  | success
  /-- The program is longer than `RAM_SIZE - 512`; nothing was written. -/
  | sizeViolation
deriving DecidableEq, Repr

/-- The bytes copied to ascending addresses from `a`. -/
def copyBytes (a : Nat) : List Byte → State → State
  | [], s => s
  | b :: bs, s => copyBytes (a + 1) bs (s.setByte a b)

/-- `LoadProgram(bytes)` (R96). -/
def loadProgram (s : State) (bytes : List Byte) : LoadResult × State :=
  if bytes.length > s.config.ramSize - 512 then (.sizeViolation, s)
  else (.success, copyBytes 0x200 bytes s)

/-- What can happen to the machine between two steps, or a step (R92). -/
inductive Move where
  | step
  | setKey (k : Nat) (pressed : Bool)
  | readDisplay
  | pollAndClearRedraw
  | loadProgram (bytes : List Byte)
deriving DecidableEq, Repr

/-- One move: a whole step or a whole host operation (20_memory.md R49). -/
def applyMove (m : Move) (s : State) : Host.Outcome State Fault Refusal :=
  match m with
  | .step => Sys2Proof.Machine.step s
  | .setKey k pressed => .next (Sys2Proof.Machine.setKey s k pressed)
  | .readDisplay => .next s
  | .pollAndClearRedraw => .next (Sys2Proof.Machine.pollAndClearRedraw s).2
  | .loadProgram bytes => .next (Sys2Proof.Machine.loadProgram s bytes).2

end Sys2Proof.Machine
end

