-- ==== Sys2Proof/Safety.lean ====
section
/-!
DEFINITION. The terms in which claims about the chipper CORE are written: the invariant of the machine, what an
instruction completes with, what it raises, and what a transition leaves unchanged.
-/

namespace Sys2Proof.Machine

/-! ### The invariant -/

/-- The latch's record stands beside the `PC` it names, and lacks a word exactly when the fetch faulted
(spec/60_exceptions.md R172). -/
def LatchConsistent (s : State) : Prop :=
  ∀ r, s.fault = some r → r.pc = s.pc ∧ (r.word = none ↔ ∃ a, r.cause = .memoryFault .fetch a)

/-- What holds in every reachable state (10_state.md R32, and the form of the model's data). -/
structure Invariant (s : State) : Prop where
  /-- The parameters are ones the spec admits (00_scope.md R5). -/
  configLegal : s.config.wellFormed = true
  /-- The stack has `STACK_DEPTH` slots (10_state.md R16). -/
  stackSlots : s.stack.length = s.config.stackDepth
  /-- `SP <= STACK_DEPTH` (10_state.md R32 (b)). -/
  spBounded : s.sp ≤ s.config.stackDepth
  /-- Every live stack entry is an address an instruction was fetched from (10_state.md R32 (d), 41_control_flow.md
  R100). -/
  liveEntries : ∀ k, k < s.sp → (s.stack.getD k 0).toNat + 1 < s.config.ramSize
  /-- Memory is in its canonical form. -/
  memoryCanonical : Memory.wf s.config s.memory = true
  /-- The fault record agrees with the state that holds it. -/
  latchConsistent : LatchConsistent s

/-! ### What a transition leaves unchanged -/

/-- The pieces of state a frame can name. -/
inductive Part where
  | config | v | i | pc | stack | sp | dt | st | memory | display | key | redraw | fault | randDraws
deriving DecidableEq, Repr

/-- A piece of state is the same in both states. Registers, memory, the display and the keys are compared by reading
every one of their elements. -/
def Part.same : Part → State → State → Prop
  | .config, s, t => t.config = s.config
  | .v, s, t => ∀ r, t.getV r = s.getV r
  | .i, s, t => t.i = s.i
  | .pc, s, t => t.pc = s.pc
  | .stack, s, t => t.stack = s.stack
  | .sp, s, t => t.sp = s.sp
  | .dt, s, t => t.dt = s.dt
  | .st, s, t => t.st = s.st
  | .memory, s, t => ∀ a, t.byteAt a = s.byteAt a
  | .display, s, t => ∀ r c, t.cell r c = s.cell r c
  | .key, s, t => ∀ k, t.keyAt k = s.keyAt k
  | .redraw, s, t => t.redraw = s.redraw
  | .fault, s, t => t.fault = s.fault
  | .randDraws, s, t => t.randDraws = s.randDraws

/-- Every piece of state that the list does not name is unchanged from `s` to `t`. -/
def OnlyChanges (ps : List Part) (s t : State) : Prop := ∀ p, p ∉ ps → p.same s t

/-- Every register that the list does not name is unchanged from `s` to `t`. -/
def RegsSameBut (rs : List Reg) (s t : State) : Prop := ∀ r, r ∉ rs → t.getV r = s.getV r

/-- Every byte of memory outside the `n` bytes from `a` is unchanged from `s` to `t`. -/
def BytesSameOutside (a n : Nat) (s t : State) : Prop := ∀ b, b < a ∨ a + n ≤ b → t.byteAt b = s.byteAt b

/-- `PC` advanced by `n`, modulo 65536 (10_state.md R15, with the spec's decision D15 for the reduction). -/
def AdvancesBy (n : Nat) (s t : State) : Prop := t.pc.toNat = (s.pc.toNat + n) % 65536

/-! ### How an instruction ends -/

/-- The instruction's execute phase answers a next state, of which `Q` holds. -/
def Completes (i : Instr) (s : State) (Q : State → Prop) : Prop := ∃ t, exec i s = .next t ∧ Q t

/-- The instruction's execute phase enters the fault: nothing changes but the latch, which holds the cause, the `PC` of
the instruction and its word (60_exceptions.md R172). -/
def Raises (i : Instr) (s : State) (cause : FaultCause) : Prop :=
  exec i s = .next { s with fault := some { cause := cause, pc := s.pc, word := some (encode i) } }

/-- The instruction completes by writing the number `n` to `V[x]` and advancing `PC` by 2, and changes nothing else. -/
def WritesReg (i : Instr) (s : State) (x : Reg) (n : Nat) : Prop :=
  Completes i s fun t =>
    (t.getV x).toNat = n ∧ RegsSameBut [x] s t ∧ AdvancesBy 2 s t ∧ OnlyChanges [.v, .pc] s t

/-- The instruction completes by writing the flag `c` to `VF` and then the number `n` to `V[x]`, advances `PC` by 2, and
changes nothing else; where `V[x]` is `VF` itself, the number is what remains there (43_alu.md R121, R133). -/
def WritesFlagAndReg (i : Instr) (s : State) (x : Reg) (c n : Nat) : Prop :=
  Completes i s fun t =>
    (x ≠ 15 → (t.getV 15).toNat = c) ∧ (t.getV x).toNat = n ∧ RegsSameBut [x, 15] s t ∧ AdvancesBy 2 s t ∧
      OnlyChanges [.v, .pc] s t

/-- The instruction completes by advancing `PC` by 4 when `p` holds and by 2 otherwise, and changes nothing else
(42_skip.md R116). -/
def SkipsIf (i : Instr) (s : State) (p : Prop) : Prop :=
  Completes i s fun t =>
    (p → AdvancesBy 4 s t) ∧ (¬p → AdvancesBy 2 s t) ∧ OnlyChanges [.pc] s t

/-! ### A sprite, read from memory -/

/-- Bit `k` of the sprite row at `I + j`, counted from the most significant (45_display.md R151, R152). -/
def SpriteSet (s : State) (j k : Nat) : Prop := (s.byteAt (s.i.toNat + j)).getLsbD (7 - k) = true

/-- A set bit of a sprite of `n` rows, drawn with its top left corner at row `y` and column `x`, lands on the cell at
row `r` and column `c` (45_display.md R152). -/
def Lands (s : State) (x y n r c : Nat) : Prop := ∃ j k, j < n ∧ k < 8 ∧ r = y + j ∧ c = x + k ∧ SpriteSet s j k

/-- A sprite draws without fault: every row is in memory and every set bit lands inside the grid (45_display.md
R151). -/
def SpriteFits (s : State) (x y n : Nat) : Prop :=
  ∀ j, j < n → s.i.toNat + j < s.config.ramSize ∧ ∀ k, k < 8 → SpriteSet s j k → y + j < 32 ∧ x + k < 64

/-- The faults that the accesses of one sprite row would raise, in draw order: the row's byte first, then its set bits
from left to right (60_exceptions.md R178). -/
def rowFaults (s : State) (x y j : Nat) : List FaultCause :=
  (if s.config.ramSize ≤ s.i.toNat + j then [.memoryFault .read (s.i.toNat + j)] else []) ++
    ((List.range 8).filter fun k =>
      (s.byteAt (s.i.toNat + j)).getLsbD (7 - k) && (decide (32 ≤ y + j) || decide (64 ≤ x + k))).map
      fun k => .displayFault (y + j) (x + k)

/-- The faults that the accesses of a sprite would raise, in draw order; the first one is the fault (60_exceptions.md
R178). -/
def drawFaults (s : State) (x y n : Nat) : List FaultCause := (List.range n).flatMap (rowFaults s x y)

/-! ### Who writes what -/

/-- The registers that an instruction may write (10_state.md R12, R31). -/
def writtenRegs : Instr → List Reg
  | .ldImm x _ | .addImm x _ | .ldReg x _ | .orReg x _ | .andReg x _ | .xorReg x _ | .rnd x _ | .ldVxDt x
  | .ldVxK x => [x]
  | .addReg x _ | .sub x _ | .shr x _ | .subn x _ | .shl x _ => [x, 15]
  | .addI _ | .drw _ _ _ => [15]
  | .ldRegs x => regsUpTo x
  | .cls | .ret | .jp _ | .call _ | .seImm _ _ | .sneImm _ _ | .seReg _ _ | .sneReg _ _ | .ldI _ | .jpV0 _
  | .skp _ | .sknp _ | .ldDtVx _ | .ldStVx _ | .ldF _ | .ldB _ | .stRegs _ => []

/-- The pieces of state that an instruction's execute phase may write besides `PC` and the fault latch
(10_state.md R31). -/
def writtenParts : Instr → List Part
  | .cls => [.display, .redraw]
  | .drw _ _ _ => [.v, .display, .redraw]
  | .ret => [.sp]
  | .call _ => [.stack, .sp]
  | .jp _ | .jpV0 _ | .seImm _ _ | .sneImm _ _ | .seReg _ _ | .sneReg _ _ | .skp _ | .sknp _ => []
  | .ldImm _ _ | .addImm _ _ | .ldReg _ _ | .orReg _ _ | .andReg _ _ | .xorReg _ _ | .addReg _ _ | .sub _ _
  | .shr _ _ | .subn _ _ | .shl _ _ | .ldVxDt _ | .ldVxK _ => [.v]
  | .rnd _ _ => [.v, .randDraws]
  | .ldI _ | .ldF _ => [.i]
  | .addI _ => [.v, .i]
  | .ldB _ => [.memory]
  | .stRegs _ => [.memory, .i]
  | .ldRegs _ => [.v, .i]
  | .ldDtVx _ => [.dt]
  | .ldStVx _ => [.st]

/-- The causes that an instruction's execute phase can raise (60_exceptions.md R171). -/
def CanRaise : Instr → FaultCause → Prop
  | .drw _ _ _, .memoryFault .read _ => True
  | .drw _ _ _, .displayFault _ _ => True
  | .ldRegs _, .memoryFault .read _ => True
  | .stRegs _, .memoryFault .write _ => True
  | .ldB _, .memoryFault .write _ => True
  | .call _, .stackOverflow _ => True
  | .ret, .stackUnderflow => True
  | .skp _, .keyIndexFault _ => True
  | .sknp _, .keyIndexFault _ => True
  | _, _ => False

end Sys2Proof.Machine
end

