-- ==== Sys2Proof/Certificates/Slice0/Obligations.lean ====
section
/-!
DEFINITION. The statements about the chipper CORE that the provers prove, in the terms of Sys2Proof/Safety.lean. Each
docstring names the rules of spec/ it formalises, and says where it rests on a decision the spec marks as its own.
-/

open Sys2Proof Sys2Proof.Machine

/-! ### Reset and the invariant -/

/-- 10_state.md section 11 (the table of reset values) and 20_memory.md section 1, for construction with any
configuration. `PC`, `SP`, `V`, the display and the font are the document's; the other values are the spec's decision
D4, and `randDraws` is the model's own (log entry 4). -/
def Obligations.ConstructionLeavesResetValues : Prop :=
  ∀ c : Config,
    let s := State.construct c
    s.config = c ∧ s.pc = 0x0200 ∧ s.sp = 0 ∧ (∀ r, s.getV r = 0) ∧ (∀ r k, s.cell r k = false) ∧
    (∀ a (h : a < 80), s.byteAt a = c.font[a]) ∧ (∀ a, 80 ≤ a → s.byteAt a = 0) ∧
    s.i = 0 ∧ s.dt = 0 ∧ s.st = 0 ∧ s.stack.length = c.stackDepth ∧ (∀ k, s.stack.getD k 0 = 0) ∧
    (∀ k, s.keyAt k = false) ∧ s.redraw = false ∧ s.fault = none ∧ s.randDraws = 0

/-- The invariant holds after construction with any legal configuration, and at `State.reset`. -/
def Obligations.InvariantHoldsAtReset : Prop :=
  (∀ c : Config, c.wellFormed = true → Invariant (State.construct c)) ∧ Invariant State.reset

/-- Every step keeps the invariant: 10_state.md section 14, and the form of the model's data. -/
def Obligations.StepKeepsInvariant : Prop :=
  ∀ s t, Invariant s → step s = .next t → Invariant t

/-- Every host operation keeps the invariant, in particular `LoadProgram` and `SetKey` on any argument. -/
def Obligations.HostOperationsKeepInvariant : Prop :=
  ∀ m s t, m ≠ Move.step → Invariant s → applyMove m s = .next t → Invariant t

/-! ### Decoding and encoding -/

/-- Decoding the word of a well-formed instruction gives it back, every operand at every value, as a word and as
bytes in memory order. That `SHR` and `SHL` have a `Y` that comes back is the model's choice (log entry 22). -/
def Obligations.DecodeOfEncode : Prop :=
  ∀ i : Instr, i.wellFormed = true →
    decode (encode i) = .ok i ∧ ∀ rest, decodeBytes (encodeBytes i ++ rest) = .ok (i, rest)

/-- Every word that decodes is the word of the instruction it decodes to, which is well-formed: no bit is lost. For the
ignored `Y` field of `8XY6` and `8XYE` this is the MODEL'S CHOICE, log entry 22: the spec decodes those words to `SHR X` and
`SHL X` and calls all 16 values of `Y` one instruction (30_encoding.md R64, R68), while the model's decoded form keeps the
field so that the word comes back. -/
def Obligations.EncodeOfDecode : Prop :=
  ∀ (w : Word) (i : Instr), decode w = .ok i → encode i = w ∧ i.wellFormed = true

/-- 30_encoding.md section 3, the opcode map: a word selects a row exactly when it agrees with the pattern under the mask; the decoder gives
the selected row's instruction, and no word selects two rows. A word that selects none is `Unknown` and carries the whole
word (30_encoding.md section 3, with the spec's decision D8 on how strictly a pattern matches). -/
def Obligations.DecoderFollowsOpcodeMap : Prop :=
  ∀ w : Word,
    (∀ i, decode w = .ok i → ∃ r, opcodeMap[rowIndex i]? = some r ∧ w &&& r.mask = r.pattern) ∧
    ((∃ i, decode w = .ok i) ↔ ∃ r ∈ opcodeMap, w &&& r.mask = r.pattern) ∧
    (∀ e, decode w = .error e → e = .unknownOpcode w) ∧
    ∀ r ∈ opcodeMap, ∀ q ∈ opcodeMap, w &&& r.mask = r.pattern → w &&& q.mask = q.pattern → r = q

/-- Words of 95_test_vectors.md section 2.1, read by the decoder. The table lists `0x8AB6` as `SHR` with `X = 10` and
`Y = 11` ignored: that the decoded `SHR` holds the ignored `Y` is the MODEL'S CHOICE, log entry 22. -/
def Obligations.SampleWordsDecode : Prop :=
  decode 0x00E0 = .ok .cls ∧ decode 0x00EE = .ok .ret ∧ decode 0x2FFF = .ok (.call 0xFFF) ∧
  decode 0x3F01 = .ok (.seImm 15 0x01) ∧ decode 0x5AB0 = .ok (.seReg 10 11) ∧ decode 0x6A2B = .ok (.ldImm 10 0x2B) ∧
  decode 0x8AB6 = .ok (.shr 10 11) ∧ decode 0xA2F0 = .ok (.ldI 0x2F0) ∧ decode 0xDABF = .ok (.drw 10 11 15) ∧
  decode 0xEFA1 = .ok (.sknp 15) ∧ decode 0xF50A = .ok (.ldVxK 5) ∧ decode 0xFF65 = .ok (.ldRegs 15) ∧
  decode 0x0000 = .error (.unknownOpcode 0x0000) ∧ decode 0x5AB1 = .error (.unknownOpcode 0x5AB1) ∧
  decode 0x8AB8 = .error (.unknownOpcode 0x8AB8) ∧ decode 0xE19F = .error (.unknownOpcode 0xE19F) ∧
  decode 0xF01F = .error (.unknownOpcode 0xF01F)

/-! ### The step cycle -/

/-- 20_memory.md sections 2 and 3: the fetch reads the two bytes at `PC` and `PC + 1`, the lower address the high byte, and
faults exactly when `PC + 1 >= RAM_SIZE`, both bytes or none. That `PC + 1` does not wrap is the spec's decision D15, the
name of the fault its decision D7. -/
def Obligations.FetchReadsBigEndianOrFaults : Prop :=
  ∀ s : State,
    (s.pc.toNat + 1 < s.config.ramSize →
      ∃ w, fetch s = .ok w ∧ w.toNat = 256 * (s.byteAt s.pc.toNat).toNat + (s.byteAt (s.pc.toNat + 1)).toNat) ∧
    (s.config.ramSize ≤ s.pc.toNat + 1 →
      fetch s = .error (.memoryFault .fetch (max s.pc.toNat s.config.ramSize)))

/-- When the two bytes at `PC` decode to an instruction and no fault is latched, the step is the instruction's `exec`,
followed by the tick unless it entered a fault (40_step_cycle.md sections 1 and 3; that a faulting step has no tick is
the spec's decision D6). -/
def Obligations.StepRunsDecodedInstruction : Prop :=
  ∀ (s t : State) (i : Instr), s.fault = none → s.pc.toNat + 1 < s.config.ramSize →
    decodeBytes [s.byteAt s.pc.toNat, s.byteAt (s.pc.toNat + 1)] = .ok (i, []) → exec i s = .next t →
    (t.fault = none → step s = .next (tick t)) ∧ (t.fault ≠ none → step s = .next t)

/-- The unknown-opcode step (40_step_cycle.md section 2): `PC` stays, the timers tick, nothing else changes, and the
status carries the word. That `PC` does not move is the document's behaviour and the spec's decision D9. -/
def Obligations.UnknownOpcodeStepOnlyTicks : Prop :=
  ∀ (s : State) (w : Word), s.fault = none → fetch s = .ok w → decode w = .error (.unknownOpcode w) →
    ∃ t, step s = .next t ∧ OnlyChanges [.dt, .st] s t ∧ t.dt.toNat = s.dt.toNat - 1 ∧ t.st.toNat = s.st.toNat - 1 ∧
      stepOutput s = { status := .unknownOpcode w, soundEvent := decide (s.st = 1) }

/-- A fetch beyond memory enters the fault with no word recorded, and nothing else changes (60_exceptions.md section 2,
the spec's decision D6). -/
def Obligations.FetchFaultIsLatched : Prop :=
  ∀ s : State, s.fault = none → s.config.ramSize ≤ s.pc.toNat + 1 →
    let r : FaultRecord := { cause := .memoryFault .fetch (max s.pc.toNat s.config.ramSize), pc := s.pc, word := none }
    step s = .next { s with fault := some r } ∧ stepOutput s = { status := .faulted r, soundEvent := false }

/-- While the latch is set a step does nothing and answers `Faulted`, and so does any number of steps
(40_step_cycle.md section 1 and 60_exceptions.md section 2, the spec's decision D6). -/
def Obligations.LatchedFaultFreezesMachine : Prop :=
  ∀ (s : State) (r : FaultRecord), s.fault = some r →
    (∀ n, core.run n s = .next s) ∧ stepOutput s = { status := .faulted r, soundEvent := false }

/-- Faults are precise (40_step_cycle.md section 1, 60_exceptions.md section 2; the spec's decision D6): a step that
enters a fault changes nothing but the latch, which records the `PC` of the step and the word it fetched. -/
def Obligations.FaultingStepHasNoPartialEffect : Prop :=
  ∀ (s t : State) (r : FaultRecord), s.fault = none → step s = .next t → t.fault = some r →
    t = { s with fault := some r } ∧ r.pc = s.pc ∧
    (∀ w, fetch s = .ok w → r.word = some w) ∧ (∀ c, fetch s = .error c → r.word = none ∧ r.cause = c)

/-- A step always answers a next state: the machine has no stop outside its own fault latch (log entry 5). -/
def Obligations.EveryStepAnswersNextState : Prop :=
  ∀ s : State, ∃ t, step s = .next t ∧ t.config = s.config ∧ (∀ k, t.keyAt k = s.keyAt k) ∧
    ∀ r, (stepOutput s).status = .faulted r ↔ t.fault = some r

/-- 40_step_cycle.md section 3, `Tick()`; that the rate is one decrement a step is the spec's decision D20. -/
def Obligations.TickDecrementsNonzeroTimers : Prop :=
  ∀ s : State, (tick s).dt.toNat = s.dt.toNat - 1 ∧ (tick s).st.toNat = s.st.toNat - 1 ∧
    OnlyChanges [.dt, .st] s (tick s) ∧ (tickSound s = true ↔ s.st.toNat = 1)

/-- Each timer counts down by one in every step that does not fault, blocked and unknown-opcode steps included, unless
the step's instruction sets it, and a set timer is decremented once in the step that sets it (40_step_cycle.md section 3,
the spec's decision D20; 46_timer_key.md section 2). -/
def Obligations.TimersCountDownOncePerStep : Prop :=
  ∀ s t : State, s.fault = none → step s = .next t → t.fault = none →
    (∀ x, currentInstr s = some (.ldDtVx x) → t.dt.toNat = (s.getV x).toNat - 1) ∧
    ((∀ x, currentInstr s ≠ some (.ldDtVx x)) → t.dt.toNat = s.dt.toNat - 1) ∧
    (∀ x, currentInstr s = some (.ldStVx x) → t.st.toNat = (s.getV x).toNat - 1) ∧
    ((∀ x, currentInstr s ≠ some (.ldStVx x)) → t.st.toNat = s.st.toNat - 1)

/-- The outputs of a step that runs an instruction (40_step_cycle.md section 4, the spec's decision D22 for the names):
`Blocked` for a key wait that found no key, `Advanced` for every other that did not fault, `Faulted` with the record
for one that did; the sound event is that the tick found `ST == 1`, and never comes with a fault. -/
def Obligations.StepOutputsOfInstruction : Prop :=
  ∀ (s t : State) (i : Instr), currentInstr s = some i → exec i s = .next t →
    (∀ r, t.fault = some r → stepOutput s = { status := .faulted r, soundEvent := false }) ∧
    (t.fault = none →
      (stepOutput s).soundEvent = decide (t.st = 1) ∧
      ((∃ x, i = .ldVxK x) → (∀ k, s.keyAt k = false) → (stepOutput s).status = .blocked) ∧
      (((∀ x, i ≠ .ldVxK x) ∨ ∃ k, s.keyAt k = true) → (stepOutput s).status = .advanced))

/-! ### Whole-machine rules -/

/-- Who writes what (10_state.md sections 2 and 13): an execute phase that enters no fault changes only the pieces of
state, and only the registers, that the table gives its instruction, besides `PC`. In particular no instruction writes the
key latch, and only `FX33` and `FX55` write memory. -/
def Obligations.InstructionsWriteOnlyTheirState : Prop :=
  ∀ (i : Instr) (s t : State), s.fault = none → exec i s = .next t → t.fault = none →
    OnlyChanges (.pc :: writtenParts i) s t ∧ RegsSameBut (writtenRegs i) s t

/-- Which instruction raises which fault (60_exceptions.md section 2, the spec's decision D7 for the names): a fault an
execute phase enters is one of its instruction's causes, and the record has the causes' code. -/
def Obligations.FaultsOnlyFromTheirInstructions : Prop :=
  ∀ (i : Instr) (s t : State) (r : FaultRecord), s.fault = none → exec i s = .next t → t.fault = some r →
    CanRaise i r.cause ∧ 1 ≤ r.cause.code ∧ r.cause.code ≤ 5 ∧ r.word = some (encode i)

/-! ### Loads and the ALU -/

/-- 43_alu.md R122 to R127: the loads, add-immediate and the bitwise operations, their encodings, their results in
every register form (`VF` as an ordinary register too), and no flag. -/
def Obligations.LoadsAndLogicWriteResult : Prop :=
  ∀ (s : State) (x y : Reg) (nn : Byte),
    (decode (0x6#4 ++ nibbleOf x ++ nn) = .ok (.ldImm x nn) ∧ WritesReg (.ldImm x nn) s x nn.toNat) ∧
    (decode (0x7#4 ++ nibbleOf x ++ nn) = .ok (.addImm x nn) ∧
      WritesReg (.addImm x nn) s x (((s.getV x).toNat + nn.toNat) % 256)) ∧
    (decode (0x8#4 ++ nibbleOf x ++ nibbleOf y ++ 0x0#4) = .ok (.ldReg x y) ∧
      WritesReg (.ldReg x y) s x (s.getV y).toNat) ∧
    (decode (0x8#4 ++ nibbleOf x ++ nibbleOf y ++ 0x1#4) = .ok (.orReg x y) ∧
      WritesReg (.orReg x y) s x ((s.getV x).toNat ||| (s.getV y).toNat)) ∧
    (decode (0x8#4 ++ nibbleOf x ++ nibbleOf y ++ 0x2#4) = .ok (.andReg x y) ∧
      WritesReg (.andReg x y) s x ((s.getV x).toNat &&& (s.getV y).toNat)) ∧
    (decode (0x8#4 ++ nibbleOf x ++ nibbleOf y ++ 0x3#4) = .ok (.xorReg x y) ∧
      WritesReg (.xorReg x y) s x ((s.getV x).toNat ^^^ (s.getV y).toNat))

/-- 43_alu.md sections 1 and 4: the flag is computed from the operands at entry and written first; the result is
computed from the registers as they are then, so with the flag in place of an operand that is `VF`. Where neither operand
is `VF` this is the document's plain effect; the forms with `VF` as an operand rest on the spec's decision D12. The result of a shift does
not depend on its `Y`, which the decoded form holds by the model's choice (log entry 22). -/
def Obligations.FlagArithmeticWritesFlagThenResult : Prop :=
  ∀ (s : State) (x y : Reg),
    let a := (s.getV x).toNat
    let b := (s.getV y).toNat
    let sel := fun (r : Reg) (c v : Nat) => if r = 15 then c else v
    let cAdd := if a + b > 255 then 1 else 0
    let cSub := if b > a then 0 else 1
    let cSubn := if a > b then 0 else 1
    WritesFlagAndReg (.addReg x y) s x cAdd ((sel x cAdd a + sel y cAdd b) % 256) ∧
    WritesFlagAndReg (.sub x y) s x cSub ((sel x cSub a + 256 - sel y cSub b) % 256) ∧
    WritesFlagAndReg (.shr x y) s x (a % 2) (sel x (a % 2) a / 2) ∧
    WritesFlagAndReg (.subn x y) s x cSubn ((sel y cSubn b + 256 - sel x cSubn a) % 256) ∧
    WritesFlagAndReg (.shl x y) s x (a / 128) (sel x (a / 128) a * 2 % 256)

/-- 43_alu.md section 5: the table of outcomes when the flag register is an operand, row by row (derived by the spec
from its decision D12). -/
def Obligations.FlagRegisterAsOperandTable : Prop :=
  ∀ (s : State) (x y : Reg), x ≠ 15 → y ≠ 15 →
    let f := (s.getV 15).toNat
    let a := (s.getV x).toNat
    let b := (s.getV y).toNat
    let leaves := fun (i : Instr) (vf : Nat) => Completes i s fun t => (t.getV 15).toNat = vf ∧ RegsSameBut [15] s t
    let leavesBoth := fun (i : Instr) (vf vx : Nat) => Completes i s fun t =>
      (t.getV 15).toNat = vf ∧ (t.getV x).toNat = vx ∧ RegsSameBut [x, 15] s t
    leaves (.addReg 15 y) (((if f + b > 255 then 1 else 0) + b) % 256) ∧
    leavesBoth (.addReg x 15) (if a + f > 255 then 1 else 0) ((a + if a + f > 255 then 1 else 0) % 256) ∧
    leaves (.addReg 15 15) (if 2 * f > 255 then 2 else 0) ∧
    leaves (.sub 15 y) (((if b > f then 0 else 1) + 256 - b) % 256) ∧
    leavesBoth (.sub x 15) (if f > a then 0 else 1) ((a + 256 - if f > a then 0 else 1) % 256) ∧
    leaves (.sub 15 15) 0 ∧
    leaves (.shr 15 y) 0 ∧
    leaves (.subn 15 y) ((b + 256 - if f > b then 0 else 1) % 256) ∧
    leavesBoth (.subn x 15) (if a > f then 0 else 1) (((if a > f then 0 else 1) + 256 - a) % 256) ∧
    leaves (.subn 15 15) 0 ∧
    leaves (.shl 15 y) (if f ≥ 128 then 2 else 0)

/-- 43_alu.md section 6: a random byte, free, masked by `NN`; each execution consumes a new one. The result has no bit
set outside `NN`, whatever the byte. The counter is the model's own (log entry 4), and the byte is a free value. -/
def Obligations.RandomByteIsMasked : Prop :=
  ∀ (s : State) (x : Reg) (nn : Byte),
    Completes (.rnd x nn) s fun t =>
      t.getV x = Config.randByte s.randDraws &&& nn ∧ (∀ k, nn.getLsbD k = false → (t.getV x).getLsbD k = false) ∧
      t.randDraws = s.randDraws + 1 ∧ RegsSameBut [x] s t ∧ AdvancesBy 2 s t ∧ OnlyChanges [.v, .pc, .randDraws] s t

/-! ### Skips and control transfer -/

/-- 42_skip.md R110 to R113: the register skips, their encodings (a nonzero low nibble of `5XYN` and `9XYN` is no
instruction), and that they write `PC` only. -/
def Obligations.RegisterSkipsAdvanceByFourOrTwo : Prop :=
  ∀ (s : State) (x y : Reg) (nn : Byte),
    (decode (0x3#4 ++ nibbleOf x ++ nn) = .ok (.seImm x nn) ∧ SkipsIf (.seImm x nn) s (s.getV x = nn)) ∧
    (decode (0x4#4 ++ nibbleOf x ++ nn) = .ok (.sneImm x nn) ∧ SkipsIf (.sneImm x nn) s (s.getV x ≠ nn)) ∧
    (decode (0x5#4 ++ nibbleOf x ++ nibbleOf y ++ 0x0#4) = .ok (.seReg x y) ∧
      (∀ n : Nibble, n ≠ 0 →
        let w := 0x5#4 ++ nibbleOf x ++ nibbleOf y ++ n
        decode w = .error (.unknownOpcode w)) ∧
      SkipsIf (.seReg x y) s (s.getV x = s.getV y)) ∧
    (decode (0x9#4 ++ nibbleOf x ++ nibbleOf y ++ 0x0#4) = .ok (.sneReg x y) ∧
      (∀ n : Nibble, n ≠ 0 →
        let w := 0x9#4 ++ nibbleOf x ++ nibbleOf y ++ n
        decode w = .error (.unknownOpcode w)) ∧
      SkipsIf (.sneReg x y) s (s.getV x ≠ s.getV y))

/-- 42_skip.md section 2, `EX9E` and `EXA1`: with `V[X] < 16` they skip on the key; with `V[X] >= 16` they raise
`KeyIndexFault`, the index not being masked (the spec's decision D13). -/
def Obligations.KeySkipsFollowLatchOrFault : Prop :=
  ∀ (s : State) (x : Reg),
    (∀ k : Reg, (s.getV x).toNat = k.val →
      SkipsIf (.skp x) s (s.keyAt k = true) ∧ SkipsIf (.sknp x) s (s.keyAt k = false)) ∧
    (16 ≤ (s.getV x).toNat →
      Raises (.skp x) s (.keyIndexFault (s.getV x).toNat) ∧ Raises (.sknp x) s (.keyIndexFault (s.getV x).toNat))

/-- 41_control_flow.md R101, R103: the jumps, their encodings, that they write `PC` only, that no target is rejected by
the jump itself, and that a target whose two bytes are not in memory faults at the next fetch. -/
def Obligations.JumpsSetProgramCounter : Prop :=
  ∀ (s : State) (nnn : Addr),
    (decode (0x1#4 ++ nnn) = .ok (.jp nnn) ∧
      Completes (.jp nnn) s fun t => t.pc.toNat = nnn.toNat ∧ OnlyChanges [.pc] s t ∧
        ((∃ c, fetch t = .error c) ↔ s.config.ramSize ≤ nnn.toNat + 1)) ∧
    (decode (0xB#4 ++ nnn) = .ok (.jpV0 nnn) ∧
      Completes (.jpV0 nnn) s fun t => t.pc.toNat = nnn.toNat + (s.getV 0).toNat ∧ OnlyChanges [.pc] s t ∧
        ((∃ c, fetch t = .error c) ↔ s.config.ramSize ≤ nnn.toNat + (s.getV 0).toNat + 1))

/-- 41_control_flow.md section 2, `2NNN`, with the stack discipline of 10_state.md section 5 (the spec's decision D5):
with a free slot the call pushes its own address and jumps; with none it raises `StackOverflow` (decision D6 for what
the fault does). A state whose stack has a slot at `SP` is meant; every state of the invariant with `SP < STACK_DEPTH`
is one. -/
def Obligations.CallPushesItsAddressOrFaults : Prop :=
  ∀ (s : State) (nnn : Addr), s.stack.length = s.config.stackDepth →
    (s.sp < s.config.stackDepth →
      Completes (.call nnn) s fun t =>
        t.pc.toNat = nnn.toNat ∧ t.sp = s.sp + 1 ∧ t.stack[s.sp]? = some s.pc ∧
        (∀ k, k ≠ s.sp → t.stack[k]? = s.stack[k]?) ∧ OnlyChanges [.stack, .sp, .pc] s t) ∧
    (s.config.stackDepth ≤ s.sp → Raises (.call nnn) s (.stackOverflow s.pc))

/-- 41_control_flow.md section 2, `00EE`, with the stack discipline of 10_state.md section 5 (the spec's decision D5):
the popped address plus 2 becomes `PC` and the slot keeps its value; with `SP == 0` it raises `StackUnderflow`
(decision D6). -/
def Obligations.ReturnPopsAddressOrFaults : Prop :=
  ∀ s : State,
    (∀ a, 0 < s.sp → s.stack[s.sp - 1]? = some a →
      Completes .ret s fun t => t.pc.toNat = (a.toNat + 2) % 65536 ∧ t.sp = s.sp - 1 ∧ OnlyChanges [.sp, .pc] s t) ∧
    (s.sp = 0 → Raises .ret s .stackUnderflow)

/-- The document's property (95_test_vectors.md S8): `2NNN` followed later by `00EE` restores `PC` to the call site's
address plus 2, whatever happened in between that left the stack as the call left it. -/
def Obligations.ReturnResumesAfterCallSite : Prop :=
  ∀ (s t u : State) (nnn : Addr), s.stack.length = s.config.stackDepth → s.sp < s.config.stackDepth →
    exec (.call nnn) s = .next t → u.stack = t.stack → u.sp = t.sp →
    Completes .ret u fun v => v.pc.toNat = (s.pc.toNat + 2) % 65536 ∧ v.sp = s.sp

/-! ### The index register and memory -/

/-- 44_index_memory.md R140, R142: the index loads and their encodings. -/
def Obligations.IndexLoadsSetIndex : Prop :=
  ∀ (s : State) (x : Reg) (nnn : Addr),
    (decode (0xA#4 ++ nnn) = .ok (.ldI nnn) ∧
      Completes (.ldI nnn) s fun t => t.i.toNat = nnn.toNat ∧ AdvancesBy 2 s t ∧ OnlyChanges [.i, .pc] s t) ∧
    (decode (0xF#4 ++ nibbleOf x ++ 0x29#8) = .ok (.ldF x) ∧
      Completes (.ldF x) s fun t => t.i.toNat = (s.getV x).toNat * 5 ∧ AdvancesBy 2 s t ∧ OnlyChanges [.i, .pc] s t)

/-- 44_index_memory.md section 2, `FX1E`: the flag says whether the sum of natural numbers exceeds `0xFFF` (the spec's
decision D14); it is written first, so with `X = 15` it is what is added (decision D12). -/
def Obligations.AddToIndexFlagsPassage : Prop :=
  ∀ (s : State) (x : Reg),
    let c := if s.i.toNat + (s.getV x).toNat > 0xFFF then 1 else 0
    Completes (.addI x) s fun t =>
      (t.getV 15).toNat = c ∧ t.i.toNat = (s.i.toNat + if x = 15 then c else (s.getV x).toNat) % 65536 ∧
      RegsSameBut [15] s t ∧ AdvancesBy 2 s t ∧ OnlyChanges [.v, .i, .pc] s t

/-- 44_index_memory.md section 2, `FX33` (canonical digits: the spec's decision D21): the three decimal digits are
stored at `I`, `I + 1`, `I + 2`, and they are the digits of the number; out of range, nothing is stored. -/
def Obligations.DecimalDigitsAreStoredOrFault : Prop :=
  ∀ (s : State) (x : Reg),
    (s.i.toNat + 2 < s.config.ramSize →
      Completes (.ldB x) s fun t =>
        (t.byteAt s.i.toNat).toNat = (s.getV x).toNat / 100 ∧
        (t.byteAt (s.i.toNat + 1)).toNat = (s.getV x).toNat / 10 % 10 ∧
        (t.byteAt (s.i.toNat + 2)).toNat = (s.getV x).toNat % 10 ∧
        BytesSameOutside s.i.toNat 3 s t ∧ AdvancesBy 2 s t ∧ OnlyChanges [.memory, .pc] s t) ∧
    (s.config.ramSize ≤ s.i.toNat + 2 →
      Raises (.ldB x) s (.memoryFault .write (max s.i.toNat s.config.ramSize)))

/-- 44_index_memory.md section 2, `FX55`: `V[0..X]` are stored at ascending addresses from `I`, which is then the number
`X + 1`; out of range, nothing is stored and `I` keeps its value. The `PC` advance is the spec's decision D16, the fault's
form its decisions D6 and D7. -/
def Obligations.RegistersAreStoredOrFault : Prop :=
  ∀ (s : State) (x : Reg),
    decode (0xF#4 ++ nibbleOf x ++ 0x55#8) = .ok (.stRegs x) ∧
    (s.i.toNat + x.val < s.config.ramSize →
      Completes (.stRegs x) s fun t =>
        (∀ k : Reg, k ≤ x → t.byteAt (s.i.toNat + k.val) = s.getV k) ∧ t.i.toNat = x.val + 1 ∧
        BytesSameOutside s.i.toNat (x.val + 1) s t ∧ AdvancesBy 2 s t ∧ OnlyChanges [.memory, .i, .pc] s t) ∧
    (s.config.ramSize ≤ s.i.toNat + x.val →
      Raises (.stRegs x) s (.memoryFault .write (max s.i.toNat s.config.ramSize)))

/-- 44_index_memory.md section 2, `FX65`: `V[0..X]` are loaded from ascending addresses from `I`, which is then the number
`X + 1`; registers above `V[X]` keep their values; out of range, no register is written. The `PC` advance is the spec's
decision D16, the fault's form its decisions D6 and D7. -/
def Obligations.RegistersAreLoadedOrFault : Prop :=
  ∀ (s : State) (x : Reg),
    decode (0xF#4 ++ nibbleOf x ++ 0x65#8) = .ok (.ldRegs x) ∧
    (s.i.toNat + x.val < s.config.ramSize →
      Completes (.ldRegs x) s fun t =>
        (∀ k : Reg, k ≤ x → t.getV k = s.byteAt (s.i.toNat + k.val)) ∧ (∀ k : Reg, x < k → t.getV k = s.getV k) ∧
        t.i.toNat = x.val + 1 ∧ AdvancesBy 2 s t ∧ OnlyChanges [.v, .i, .pc] s t) ∧
    (s.config.ramSize ≤ s.i.toNat + x.val →
      Raises (.ldRegs x) s (.memoryFault .read (max s.i.toNat s.config.ramSize)))

/-- Storing the registers and loading them back through the same `I` restores all of them, whatever values the
registers took in between. -/
def Obligations.LoadAfterStoreRestoresRegisters : Prop :=
  ∀ (s t u : State) (x : Reg), exec (.stRegs x) s = .next t → s.i.toNat + x.val < s.config.ramSize →
    u.i = s.i → u.config = t.config → u.memory = t.memory →
    Completes (.ldRegs x) u fun v => ∀ k : Reg, k ≤ x → v.getV k = s.getV k

/-- 20_memory.md sections 2 and 5: a byte written in range is what a later read of its address returns, every other byte
reads as before, nothing else changes, and an access out of range is a `MemoryFault` of its kind (no write protection:
the spec's decision D26). -/
def Obligations.ByteReadsBackAsWritten : Prop :=
  ∀ (s : State) (a : Nat) (x : Byte),
    (a < s.config.ramSize →
      ∃ t, memWrite s a x = .ok t ∧ memRead t a = .ok x ∧ (∀ k, k ≠ a → memRead t k = memRead s k) ∧
        OnlyChanges [.memory] s t ∧ (Memory.wf s.config s.memory = true → Memory.wf t.config t.memory = true)) ∧
    (s.config.ramSize ≤ a →
      memWrite s a x = .error (.memoryFault .write a) ∧ memRead s a = .error (.memoryFault .read a))

/-- Self-modifying code is exact (20_memory.md section 7, derived by the spec from its fetch rule): a step of `FX55` or
`FX33` whose stored bytes cover the two bytes after the instruction is followed by a fetch of exactly the stored word. For
`FX55`, `V[j]` and `V[k]` are the registers stored there; for `FX33`, they are the first two or the last two digits. -/
def Obligations.StoredWordIsFetchedNext : Prop :=
  ∀ (s t : State) (x : Reg), s.config.wellFormed = true → step s = .next t →
    (∀ j k : Reg, currentInstr s = some (.stRegs x) → s.i.toNat + x.val < s.config.ramSize → k ≤ x →
      s.i.toNat + j.val = s.pc.toNat + 2 → s.i.toNat + k.val = s.pc.toNat + 3 →
      fetch t = .ok (s.getV j ++ s.getV k)) ∧
    (currentInstr s = some (.ldB x) → s.i.toNat + 2 < s.config.ramSize → s.i.toNat = s.pc.toNat + 2 →
      ∃ w, fetch t = .ok w ∧ w.toNat = 256 * ((s.getV x).toNat / 100) + (s.getV x).toNat / 10 % 10) ∧
    (currentInstr s = some (.ldB x) → s.i.toNat + 2 < s.config.ramSize → s.i.toNat = s.pc.toNat + 1 →
      ∃ w, fetch t = .ok w ∧ w.toNat = 256 * ((s.getV x).toNat / 10 % 10) + (s.getV x).toNat % 10)

/-! ### The display -/

/-- 45_display.md R150: every cell 0, `redraw` raised so that the next poll returns true exactly once, `VF` untouched. -/
def Obligations.ClearScreenBlanksDisplay : Prop :=
  decode 0x00E0 = .ok .cls ∧
  ∀ s : State, Completes .cls s fun t =>
    (∀ r c, t.cell r c = false) ∧ t.redraw = true ∧ AdvancesBy 2 s t ∧ OnlyChanges [.display, .redraw, .pc] s t ∧
      (pollAndClearRedraw t).1 = true ∧ (pollAndClearRedraw (pollAndClearRedraw t).2).1 = false

/-- 45_display.md sections 1 and 2: a sprite whose rows are in memory and whose set bits are in the grid is composed by
exclusive OR with its top left corner at column `V[X]` and row `V[Y]` as they were at entry (the spec's decision D10);
`VF` is 1 exactly when a set bit lands on a cell that was 1; `redraw` is raised; `I` and memory are untouched. Every row
count is covered, none included, and `X` or `Y` may be `VF`. -/
def Obligations.DrawComposesSpriteByXor : Prop :=
  ∀ (s : State) (x y : Reg) (n : Nat),
    let cx := (s.getV x).toNat
    let cy := (s.getV y).toNat
    SpriteFits s cx cy n →
    Completes (.drw x y n) s fun t =>
      (∀ r c, Lands s cx cy n r c → t.cell r c = !s.cell r c) ∧
      (∀ r c, ¬Lands s cx cy n r c → t.cell r c = s.cell r c) ∧
      ((∃ r c, Lands s cx cy n r c ∧ s.cell r c = true) → t.getV 15 = 1) ∧
      ((¬∃ r c, Lands s cx cy n r c ∧ s.cell r c = true) → t.getV 15 = 0) ∧
      t.redraw = true ∧ RegsSameBut [15] s t ∧ AdvancesBy 2 s t ∧ OnlyChanges [.v, .display, .redraw, .pc] s t

/-- 60_exceptions.md section 2 (priority, the spec's decision D6) and 45_display.md section 1 (only set bits access
cells, decision D11): the first access of the draw order that is out of range names the fault, and all effects of the
draw are undone; with none out of range the sprite fits. -/
def Obligations.DrawFaultIsFirstOffender : Prop :=
  ∀ (s : State) (x y : Reg) (n : Nat),
    let cx := (s.getV x).toNat
    let cy := (s.getV y).toNat
    (∀ c, (drawFaults s cx cy n).head? = some c → Raises (.drw x y n) s c) ∧
    ((drawFaults s cx cy n).head? = none ↔ SpriteFits s cx cy n)

/-- 45_display.md section 2, self-cancellation (derived by the spec): drawing the same sprite twice restores every cell;
on a region that was all 0, the second draw sets `VF` exactly when the sprite has a set bit. The coordinate registers are
not `VF`, which the first draw writes. -/
def Obligations.DrawingTwiceRestoresDisplay : Prop :=
  ∀ (s t : State) (x y : Reg) (n : Nat), x ≠ 15 → y ≠ 15 →
    let cx := (s.getV x).toNat
    let cy := (s.getV y).toNat
    SpriteFits s cx cy n → exec (.drw x y n) s = .next t →
    Completes (.drw x y n) t fun u =>
      (∀ r c, u.cell r c = s.cell r c) ∧
      ((∀ r c, Lands s cx cy n r c → s.cell r c = false) →
        (t.getV 15 = 0 ∧ (u.getV 15 = 1 ↔ ∃ r c, Lands s cx cy n r c)))

/-! ### Timers and keys -/

/-- 46_timer_key.md section 2, `FX07`, `FX15`, `FX18`: the timer instructions, their encodings, and their timer after the
tick of the same step (one tick a step is the spec's decision D20). -/
def Obligations.TimerAccessReadsAndSets : Prop :=
  ∀ (s : State) (x : Reg),
    (decode (0xF#4 ++ nibbleOf x ++ 0x07#8) = .ok (.ldVxDt x) ∧ WritesReg (.ldVxDt x) s x s.dt.toNat) ∧
    (decode (0xF#4 ++ nibbleOf x ++ 0x15#8) = .ok (.ldDtVx x) ∧
      Completes (.ldDtVx x) s fun t => t.dt = s.getV x ∧ (tick t).dt.toNat = (s.getV x).toNat - 1 ∧ AdvancesBy 2 s t ∧
        OnlyChanges [.dt, .pc] s t) ∧
    (decode (0xF#4 ++ nibbleOf x ++ 0x18#8) = .ok (.ldStVx x) ∧
      Completes (.ldStVx x) s fun t => t.st = s.getV x ∧ (tick t).st.toNat = (s.getV x).toNat - 1 ∧
        (tickSound t = true ↔ (s.getV x).toNat = 1) ∧ AdvancesBy 2 s t ∧ OnlyChanges [.st, .pc] s t)

/-- 46_timer_key.md section 2, `FX0A`: with some key pressed the highest pressed index is recorded and `PC` advances; with none the
execute phase writes nothing, `PC` included, and the status is `Blocked` (the names of the statuses are the spec's decision
D22). -/
def Obligations.KeyWaitTakesHighestKeyOrBlocks : Prop :=
  ∀ (s : State) (x : Reg),
    decode (0xF#4 ++ nibbleOf x ++ 0x0A#8) = .ok (.ldVxK x) ∧
    (∀ k : Reg, s.keyAt k = true → (∀ l, s.keyAt l = true → l ≤ k) →
      WritesReg (.ldVxK x) s x k.val ∧ executeStatus (.ldVxK x) s = .advanced) ∧
    ((∀ k, s.keyAt k = false) → exec (.ldVxK x) s = .next s ∧ executeStatus (.ldVxK x) s = .blocked)

/-! ### The host's operations -/

/-- 40_step_cycle.md section 5, `SetKey`: the named key and nothing else; an index above 15 changes nothing (the spec's
decision D19). -/
def Obligations.SetKeyWritesOneKey : Prop :=
  ∀ (s : State) (k : Nat) (p : Bool),
    (∀ l : Reg, (setKey s k p).keyAt l = if l.val = k then p else s.keyAt l) ∧
    (16 ≤ k → setKey s k p = s) ∧ OnlyChanges [.key] s (setKey s k p)

/-- 40_step_cycle.md section 5, `ReadDisplay` and `PollAndClearRedraw`: the snapshot has every cell and changes nothing
(its layout by row and column is the spec's decision D27); the poll returns the flag and clears it, so that a second poll
returns false. -/
def Obligations.PollClearsRedrawAndSnapshotIsWhole : Prop :=
  ∀ s : State,
    (∀ r c (hr : r < 32) (hc : c < 64), ((readDisplay s)[r])[c] = s.cell r c) ∧
    applyMove .readDisplay s = .next s ∧
    (pollAndClearRedraw s).1 = s.redraw ∧ (pollAndClearRedraw s).2.redraw = false ∧
    (pollAndClearRedraw (pollAndClearRedraw s).2).1 = false ∧ OnlyChanges [.redraw] s (pollAndClearRedraw s).2

/-- 40_step_cycle.md section 5, `LoadProgram`: exactly `RAM_SIZE - 512` bytes are the most; they are copied to
`0x200` upwards and nothing else changes; a longer program is refused and writes nothing (the spec's decision D19). -/
def Obligations.LoadProgramCopiesOrRefuses : Prop :=
  ∀ (s : State) (bytes : List Byte),
    (bytes.length ≤ s.config.ramSize - 512 →
      (loadProgram s bytes).1 = .success ∧
      (∀ k (h : k < bytes.length), (loadProgram s bytes).2.byteAt (0x200 + k) = bytes[k]) ∧
      BytesSameOutside 0x200 bytes.length s (loadProgram s bytes).2 ∧
      OnlyChanges [.memory] s (loadProgram s bytes).2) ∧
    (s.config.ramSize - 512 < bytes.length → loadProgram s bytes = (.sizeViolation, s))

/-! ### The end of a run -/

/-- The end of a run (40_step_cycle.md section 6): the self-jump is the word of `1NNN` at its own address with no fault
latched; there every step ends `Advanced` and only ticks; and a run that has ended, in the self-jump or in a latched fault,
stays ended through any number of steps that change nothing but the timers. The predicate is the MODEL'S CHOICE (log entry
24), which the spec asks for; the freeze is the spec's decision D6. -/
def Obligations.EndedRunChangesOnlyTimers : Prop :=
  ∀ (s : State) (a : Addr),
    (s.spinsAt a = true ↔ s.fault = none ∧ s.pc.toNat = a.toNat ∧ fetch s = .ok (encode (.jp a))) ∧
    (s.runEnded a = true ↔ s.fault ≠ none ∨ s.spinsAt a = true) ∧
    (s.spinsAt a = true → step s = .next (tick s) ∧ (stepOutput s).status = .advanced) ∧
    (s.runEnded a = true → ∀ n, ∃ t, core.run n s = .next t ∧ t.runEnded a = true ∧ OnlyChanges [.dt, .st] s t)
end

