-- ==== Sys2Proof/Laws/Encoding.lean ====
section
/-!
SUPPORT. The fields of the three forms of word that the encoder writes, and the word put together from its fields
(spec/30_encoding.md R61, R62), so that no proof about decoding unfolds a slice.
-/

namespace Sys2Proof

@[simp] theorem regOf_nibbleOf (x : Reg) : regOf (nibbleOf x) = x := by
  revert x; decide

@[simp] theorem nibbleOf_regOf (b : Nibble) : nibbleOf (regOf b) = b := by
  revert b; decide

/-- The low part of a concatenation. -/
theorem slice_append_low {p q : Nat} (a : BitVec p) (b : BitVec q) : (a ++ b).extractLsb' 0 q = b := by
  ext k hk
  simp [BitVec.getLsbD_append, hk]

/-- A slice of the high part of a concatenation. -/
theorem slice_append_high {p q : Nat} (a : BitVec p) (b : BitVec q) (k n : Nat) :
    (a ++ b).extractLsb' (q + k) n = a.extractLsb' k n := by
  ext l hl
  simp [BitVec.getLsbD_append, Nat.add_assoc]

theorem slice_whole {p : Nat} (a : BitVec p) : a.extractLsb' 0 p = a := by
  ext k hk
  simp

section forms

variable (op n : Nibble) (x y : Reg) (nn : Byte) (nnn : Addr)

@[simp] theorem formAddr_fieldOp : fieldOp (formAddr op nnn) = op :=
  (slice_append_high op nnn 0 4).trans (slice_whole op)

@[simp] theorem formAddr_fieldNNN : fieldNNN (formAddr op nnn) = nnn := slice_append_low op nnn

@[simp] theorem formRegImm_fieldOp : fieldOp (formRegImm op x nn) = op :=
  (slice_append_high (op ++ nibbleOf x) nn 4 4).trans
    ((slice_append_high op (nibbleOf x) 0 4).trans (slice_whole op))

@[simp] theorem formRegImm_fieldX : fieldX (formRegImm op x nn) = x := by
  have h : nibbleX (formRegImm op x nn) = nibbleOf x :=
    (slice_append_high (op ++ nibbleOf x) nn 0 4).trans (slice_append_low op (nibbleOf x))
  rw [fieldX, h, regOf_nibbleOf]

@[simp] theorem formRegImm_fieldNN : fieldNN (formRegImm op x nn) = nn := slice_append_low (op ++ nibbleOf x) nn

@[simp] theorem formRegReg_fieldOp : fieldOp (formRegReg op x y n) = op :=
  (slice_append_high (op ++ nibbleOf x ++ nibbleOf y) n 8 4).trans
    ((slice_append_high (op ++ nibbleOf x) (nibbleOf y) 4 4).trans
      ((slice_append_high op (nibbleOf x) 0 4).trans (slice_whole op)))

@[simp] theorem formRegReg_fieldX : fieldX (formRegReg op x y n) = x := by
  have h : nibbleX (formRegReg op x y n) = nibbleOf x :=
    (slice_append_high (op ++ nibbleOf x ++ nibbleOf y) n 4 4).trans
      ((slice_append_high (op ++ nibbleOf x) (nibbleOf y) 0 4).trans (slice_append_low op (nibbleOf x)))
  rw [fieldX, h, regOf_nibbleOf]

@[simp] theorem formRegReg_fieldY : fieldY (formRegReg op x y n) = y := by
  have h : nibbleY (formRegReg op x y n) = nibbleOf y :=
    (slice_append_high (op ++ nibbleOf x ++ nibbleOf y) n 0 4).trans
      (slice_append_low (op ++ nibbleOf x) (nibbleOf y))
  rw [fieldY, h, regOf_nibbleOf]

@[simp] theorem formRegReg_fieldN : fieldN (formRegReg op x y n) = n :=
  slice_append_low (op ++ nibbleOf x ++ nibbleOf y) n

end forms

section joins

variable (w : Word)

/-- A word is its fields in format ADDR. -/
theorem formAddr_fields : formAddr (fieldOp w) (fieldNNN w) = w := by
  have h : fieldOp w ++ fieldNNN w = w := by
    ext k hk
    simp only [fieldOp, fieldNNN, BitVec.getElem_append, BitVec.getElem_extractLsb']
    split
    · simp [BitVec.getLsbD_eq_getElem hk]
    · rw [Nat.add_sub_cancel' (by omega), BitVec.getLsbD_eq_getElem hk]
  rw [formAddr, h]

/-- A word is its fields in format REG_IMM. -/
theorem formRegImm_fields : formRegImm (fieldOp w) (fieldX w) (fieldNN w) = w := by
  have h : fieldOp w ++ nibbleX w ++ fieldNN w = w := by
    ext k hk
    simp only [fieldOp, nibbleX, fieldNN, BitVec.getElem_append, BitVec.getElem_extractLsb']
    split
    · simp [BitVec.getLsbD_eq_getElem hk]
    · split
      · rw [Nat.add_sub_cancel' (by omega), BitVec.getLsbD_eq_getElem hk]
      · rw [show 12 + (k - 8 - 4) = k by omega, BitVec.getLsbD_eq_getElem hk]
  rw [formRegImm, fieldX, nibbleOf_regOf, h]

/-- A word is its fields in formats REG_REG and REG_REG_N. -/
theorem formRegReg_fields : formRegReg (fieldOp w) (fieldX w) (fieldY w) (fieldN w) = w := by
  have h : fieldOp w ++ nibbleX w ++ nibbleY w ++ fieldN w = w := by
    ext k hk
    simp only [fieldOp, nibbleX, nibbleY, fieldN, BitVec.getElem_append, BitVec.getElem_extractLsb']
    split
    · simp [BitVec.getLsbD_eq_getElem hk]
    · split
      · rw [Nat.add_sub_cancel' (by omega), BitVec.getLsbD_eq_getElem hk]
      · split
        · rw [show 8 + (k - 4 - 4) = k by omega, BitVec.getLsbD_eq_getElem hk]
        · rw [show 12 + (k - 4 - 4 - 4) = k by omega, BitVec.getLsbD_eq_getElem hk]
  rw [formRegReg, fieldX, fieldY, nibbleOf_regOf, nibbleOf_regOf, h]

end joins

/-! ### Fields under a mask -/

theorem fieldOp_and (w m : Word) : fieldOp (w &&& m) = fieldOp w &&& fieldOp m := by
  ext k hk; simp [fieldOp]

theorem fieldN_and (w m : Word) : fieldN (w &&& m) = fieldN w &&& fieldN m := by
  ext k hk; simp [fieldN]

theorem fieldNN_and (w m : Word) : fieldNN (w &&& m) = fieldNN w &&& fieldNN m := by
  ext k hk; simp [fieldNN]

/-- A rejection carries the whole word. -/
theorem decode_error {w : Word} {e : DecodeReject} (h : decode w = .error e) : e = .unknownOpcode w := by
  unfold decode decodeFamily0 decodeFamily8 decodeFamilyE decodeFamilyF at h
  simp only at h
  repeat' split at h
  all_goals first | (cases h; done) | (cases h; rfl)

/-- The two bytes of a word put together again. -/
@[simp] theorem wordOfBytes_bytes (w : Word) : wordOfBytes (highByte w) (lowByte w) = w := by
  have h : highByte w ++ lowByte w = w := by
    ext k hk
    simp only [highByte, lowByte, BitVec.getElem_append, BitVec.getElem_extractLsb']
    split
    · simp [BitVec.getLsbD_eq_getElem hk]
    · rw [Nat.add_sub_cancel' (by omega), BitVec.getLsbD_eq_getElem hk]
  rw [wordOfBytes, h]

/-- The byte decoder decodes the word of the first two bytes and leaves the rest. -/
theorem decodeBytes_encodeBytes (i j : Instr) (rest : List Byte) (h : decode (encode i) = .ok j) :
    decodeBytes (encodeBytes i ++ rest) = .ok (j, rest) := by
  simp [decodeBytes, encodeBytes, h]

end Sys2Proof
end

