-- ==== Sys2Proof/Laws/State.lean ====
section
/-!
SUPPORT. One lemma per field per update of the state, and per reader (`getV`, `byteAt`, `cell`, `keyAt`) per update, so
that no proof unfolds a record update. All but the readers of what an update writes hold by `rfl`.
-/

namespace Sys2Proof.Machine

variable (s : State)

/-! ### setV -/

@[simp] theorem State.setV_config (r : Reg) (b : Byte) : (s.setV r b).config = s.config := rfl
@[simp] theorem State.setV_v (r : Reg) (b : Byte) : (s.setV r b).v = s.v.set r.val b := rfl
@[simp] theorem State.setV_i (r : Reg) (b : Byte) : (s.setV r b).i = s.i := rfl
@[simp] theorem State.setV_pc (r : Reg) (b : Byte) : (s.setV r b).pc = s.pc := rfl
@[simp] theorem State.setV_stack (r : Reg) (b : Byte) : (s.setV r b).stack = s.stack := rfl
@[simp] theorem State.setV_sp (r : Reg) (b : Byte) : (s.setV r b).sp = s.sp := rfl
@[simp] theorem State.setV_dt (r : Reg) (b : Byte) : (s.setV r b).dt = s.dt := rfl
@[simp] theorem State.setV_st (r : Reg) (b : Byte) : (s.setV r b).st = s.st := rfl
@[simp] theorem State.setV_memory (r : Reg) (b : Byte) : (s.setV r b).memory = s.memory := rfl
@[simp] theorem State.setV_display (r : Reg) (b : Byte) : (s.setV r b).display = s.display := rfl
@[simp] theorem State.setV_key (r : Reg) (b : Byte) : (s.setV r b).key = s.key := rfl
@[simp] theorem State.setV_redraw (r : Reg) (b : Byte) : (s.setV r b).redraw = s.redraw := rfl
@[simp] theorem State.setV_fault (r : Reg) (b : Byte) : (s.setV r b).fault = s.fault := rfl
@[simp] theorem State.setV_randDraws (r : Reg) (b : Byte) : (s.setV r b).randDraws = s.randDraws := rfl
@[simp] theorem State.setV_byteAt (r : Reg) (b : Byte) (k : Nat) : (s.setV r b).byteAt k = s.byteAt k := rfl
@[simp] theorem State.setV_cell (r : Reg) (b : Byte) (k l : Nat) : (s.setV r b).cell k l = s.cell k l := rfl
@[simp] theorem State.setV_keyAt (r : Reg) (b : Byte) (k : Reg) : (s.setV r b).keyAt k = s.keyAt k := rfl
@[simp] theorem State.setV_effAddr (r : Reg) (b : Byte) (k : Nat) : (s.setV r b).effAddr k = s.effAddr k := rfl

/-! ### setFlag -/

@[simp] theorem State.setFlag_config (f : Byte) : (s.setFlag f).config = s.config := rfl
@[simp] theorem State.setFlag_v (f : Byte) : (s.setFlag f).v = s.v.set flagReg.val f := rfl
@[simp] theorem State.setFlag_i (f : Byte) : (s.setFlag f).i = s.i := rfl
@[simp] theorem State.setFlag_pc (f : Byte) : (s.setFlag f).pc = s.pc := rfl
@[simp] theorem State.setFlag_stack (f : Byte) : (s.setFlag f).stack = s.stack := rfl
@[simp] theorem State.setFlag_sp (f : Byte) : (s.setFlag f).sp = s.sp := rfl
@[simp] theorem State.setFlag_dt (f : Byte) : (s.setFlag f).dt = s.dt := rfl
@[simp] theorem State.setFlag_st (f : Byte) : (s.setFlag f).st = s.st := rfl
@[simp] theorem State.setFlag_memory (f : Byte) : (s.setFlag f).memory = s.memory := rfl
@[simp] theorem State.setFlag_display (f : Byte) : (s.setFlag f).display = s.display := rfl
@[simp] theorem State.setFlag_key (f : Byte) : (s.setFlag f).key = s.key := rfl
@[simp] theorem State.setFlag_redraw (f : Byte) : (s.setFlag f).redraw = s.redraw := rfl
@[simp] theorem State.setFlag_fault (f : Byte) : (s.setFlag f).fault = s.fault := rfl
@[simp] theorem State.setFlag_randDraws (f : Byte) : (s.setFlag f).randDraws = s.randDraws := rfl
@[simp] theorem State.setFlag_byteAt (f : Byte) (k : Nat) : (s.setFlag f).byteAt k = s.byteAt k := rfl
@[simp] theorem State.setFlag_cell (f : Byte) (k l : Nat) : (s.setFlag f).cell k l = s.cell k l := rfl
@[simp] theorem State.setFlag_keyAt (f : Byte) (k : Reg) : (s.setFlag f).keyAt k = s.keyAt k := rfl
@[simp] theorem State.setFlag_effAddr (f : Byte) (k : Nat) : (s.setFlag f).effAddr k = s.effAddr k := rfl

/-! ### setI -/

@[simp] theorem State.setI_config (w : Word) : (s.setI w).config = s.config := rfl
@[simp] theorem State.setI_v (w : Word) : (s.setI w).v = s.v := rfl
@[simp] theorem State.setI_i (w : Word) : (s.setI w).i = w := rfl
@[simp] theorem State.setI_pc (w : Word) : (s.setI w).pc = s.pc := rfl
@[simp] theorem State.setI_stack (w : Word) : (s.setI w).stack = s.stack := rfl
@[simp] theorem State.setI_sp (w : Word) : (s.setI w).sp = s.sp := rfl
@[simp] theorem State.setI_dt (w : Word) : (s.setI w).dt = s.dt := rfl
@[simp] theorem State.setI_st (w : Word) : (s.setI w).st = s.st := rfl
@[simp] theorem State.setI_memory (w : Word) : (s.setI w).memory = s.memory := rfl
@[simp] theorem State.setI_display (w : Word) : (s.setI w).display = s.display := rfl
@[simp] theorem State.setI_key (w : Word) : (s.setI w).key = s.key := rfl
@[simp] theorem State.setI_redraw (w : Word) : (s.setI w).redraw = s.redraw := rfl
@[simp] theorem State.setI_fault (w : Word) : (s.setI w).fault = s.fault := rfl
@[simp] theorem State.setI_randDraws (w : Word) : (s.setI w).randDraws = s.randDraws := rfl
@[simp] theorem State.setI_getV (w : Word) (q : Reg) : (s.setI w).getV q = s.getV q := rfl
@[simp] theorem State.setI_byteAt (w : Word) (k : Nat) : (s.setI w).byteAt k = s.byteAt k := rfl
@[simp] theorem State.setI_cell (w : Word) (k l : Nat) : (s.setI w).cell k l = s.cell k l := rfl
@[simp] theorem State.setI_keyAt (w : Word) (k : Reg) : (s.setI w).keyAt k = s.keyAt k := rfl

/-! ### setPc -/

@[simp] theorem State.setPc_config (w : Word) : (s.setPc w).config = s.config := rfl
@[simp] theorem State.setPc_v (w : Word) : (s.setPc w).v = s.v := rfl
@[simp] theorem State.setPc_i (w : Word) : (s.setPc w).i = s.i := rfl
@[simp] theorem State.setPc_pc (w : Word) : (s.setPc w).pc = w := rfl
@[simp] theorem State.setPc_stack (w : Word) : (s.setPc w).stack = s.stack := rfl
@[simp] theorem State.setPc_sp (w : Word) : (s.setPc w).sp = s.sp := rfl
@[simp] theorem State.setPc_dt (w : Word) : (s.setPc w).dt = s.dt := rfl
@[simp] theorem State.setPc_st (w : Word) : (s.setPc w).st = s.st := rfl
@[simp] theorem State.setPc_memory (w : Word) : (s.setPc w).memory = s.memory := rfl
@[simp] theorem State.setPc_display (w : Word) : (s.setPc w).display = s.display := rfl
@[simp] theorem State.setPc_key (w : Word) : (s.setPc w).key = s.key := rfl
@[simp] theorem State.setPc_redraw (w : Word) : (s.setPc w).redraw = s.redraw := rfl
@[simp] theorem State.setPc_fault (w : Word) : (s.setPc w).fault = s.fault := rfl
@[simp] theorem State.setPc_randDraws (w : Word) : (s.setPc w).randDraws = s.randDraws := rfl
@[simp] theorem State.setPc_getV (w : Word) (q : Reg) : (s.setPc w).getV q = s.getV q := rfl
@[simp] theorem State.setPc_byteAt (w : Word) (k : Nat) : (s.setPc w).byteAt k = s.byteAt k := rfl
@[simp] theorem State.setPc_cell (w : Word) (k l : Nat) : (s.setPc w).cell k l = s.cell k l := rfl
@[simp] theorem State.setPc_keyAt (w : Word) (k : Reg) : (s.setPc w).keyAt k = s.keyAt k := rfl
@[simp] theorem State.setPc_effAddr (w : Word) (k : Nat) : (s.setPc w).effAddr k = s.effAddr k := rfl

/-! ### advance -/

@[simp] theorem State.advance_config : (s.advance).config = s.config := rfl
@[simp] theorem State.advance_v : (s.advance).v = s.v := rfl
@[simp] theorem State.advance_i : (s.advance).i = s.i := rfl
@[simp] theorem State.advance_pc : (s.advance).pc = s.pc + 2 := rfl
@[simp] theorem State.advance_stack : (s.advance).stack = s.stack := rfl
@[simp] theorem State.advance_sp : (s.advance).sp = s.sp := rfl
@[simp] theorem State.advance_dt : (s.advance).dt = s.dt := rfl
@[simp] theorem State.advance_st : (s.advance).st = s.st := rfl
@[simp] theorem State.advance_memory : (s.advance).memory = s.memory := rfl
@[simp] theorem State.advance_display : (s.advance).display = s.display := rfl
@[simp] theorem State.advance_key : (s.advance).key = s.key := rfl
@[simp] theorem State.advance_redraw : (s.advance).redraw = s.redraw := rfl
@[simp] theorem State.advance_fault : (s.advance).fault = s.fault := rfl
@[simp] theorem State.advance_randDraws : (s.advance).randDraws = s.randDraws := rfl
@[simp] theorem State.advance_getV (q : Reg) : (s.advance).getV q = s.getV q := rfl
@[simp] theorem State.advance_byteAt (k : Nat) : (s.advance).byteAt k = s.byteAt k := rfl
@[simp] theorem State.advance_cell (k l : Nat) : (s.advance).cell k l = s.cell k l := rfl
@[simp] theorem State.advance_keyAt (k : Reg) : (s.advance).keyAt k = s.keyAt k := rfl
@[simp] theorem State.advance_effAddr (k : Nat) : (s.advance).effAddr k = s.effAddr k := rfl

/-! ### skipIf -/

@[simp] theorem State.skipIf_config (c : Bool) : (s.skipIf c).config = s.config := rfl
@[simp] theorem State.skipIf_v (c : Bool) : (s.skipIf c).v = s.v := rfl
@[simp] theorem State.skipIf_i (c : Bool) : (s.skipIf c).i = s.i := rfl
@[simp] theorem State.skipIf_pc (c : Bool) : (s.skipIf c).pc = s.pc + if c then 4 else 2 := rfl
@[simp] theorem State.skipIf_stack (c : Bool) : (s.skipIf c).stack = s.stack := rfl
@[simp] theorem State.skipIf_sp (c : Bool) : (s.skipIf c).sp = s.sp := rfl
@[simp] theorem State.skipIf_dt (c : Bool) : (s.skipIf c).dt = s.dt := rfl
@[simp] theorem State.skipIf_st (c : Bool) : (s.skipIf c).st = s.st := rfl
@[simp] theorem State.skipIf_memory (c : Bool) : (s.skipIf c).memory = s.memory := rfl
@[simp] theorem State.skipIf_display (c : Bool) : (s.skipIf c).display = s.display := rfl
@[simp] theorem State.skipIf_key (c : Bool) : (s.skipIf c).key = s.key := rfl
@[simp] theorem State.skipIf_redraw (c : Bool) : (s.skipIf c).redraw = s.redraw := rfl
@[simp] theorem State.skipIf_fault (c : Bool) : (s.skipIf c).fault = s.fault := rfl
@[simp] theorem State.skipIf_randDraws (c : Bool) : (s.skipIf c).randDraws = s.randDraws := rfl
@[simp] theorem State.skipIf_getV (c : Bool) (q : Reg) : (s.skipIf c).getV q = s.getV q := rfl
@[simp] theorem State.skipIf_byteAt (c : Bool) (k : Nat) : (s.skipIf c).byteAt k = s.byteAt k := rfl
@[simp] theorem State.skipIf_cell (c : Bool) (k l : Nat) : (s.skipIf c).cell k l = s.cell k l := rfl
@[simp] theorem State.skipIf_keyAt (c : Bool) (k : Reg) : (s.skipIf c).keyAt k = s.keyAt k := rfl
@[simp] theorem State.skipIf_effAddr (c : Bool) (k : Nat) : (s.skipIf c).effAddr k = s.effAddr k := rfl

/-! ### setDt -/

@[simp] theorem State.setDt_config (b : Byte) : (s.setDt b).config = s.config := rfl
@[simp] theorem State.setDt_v (b : Byte) : (s.setDt b).v = s.v := rfl
@[simp] theorem State.setDt_i (b : Byte) : (s.setDt b).i = s.i := rfl
@[simp] theorem State.setDt_pc (b : Byte) : (s.setDt b).pc = s.pc := rfl
@[simp] theorem State.setDt_stack (b : Byte) : (s.setDt b).stack = s.stack := rfl
@[simp] theorem State.setDt_sp (b : Byte) : (s.setDt b).sp = s.sp := rfl
@[simp] theorem State.setDt_dt (b : Byte) : (s.setDt b).dt = b := rfl
@[simp] theorem State.setDt_st (b : Byte) : (s.setDt b).st = s.st := rfl
@[simp] theorem State.setDt_memory (b : Byte) : (s.setDt b).memory = s.memory := rfl
@[simp] theorem State.setDt_display (b : Byte) : (s.setDt b).display = s.display := rfl
@[simp] theorem State.setDt_key (b : Byte) : (s.setDt b).key = s.key := rfl
@[simp] theorem State.setDt_redraw (b : Byte) : (s.setDt b).redraw = s.redraw := rfl
@[simp] theorem State.setDt_fault (b : Byte) : (s.setDt b).fault = s.fault := rfl
@[simp] theorem State.setDt_randDraws (b : Byte) : (s.setDt b).randDraws = s.randDraws := rfl
@[simp] theorem State.setDt_getV (b : Byte) (q : Reg) : (s.setDt b).getV q = s.getV q := rfl
@[simp] theorem State.setDt_byteAt (b : Byte) (k : Nat) : (s.setDt b).byteAt k = s.byteAt k := rfl
@[simp] theorem State.setDt_cell (b : Byte) (k l : Nat) : (s.setDt b).cell k l = s.cell k l := rfl
@[simp] theorem State.setDt_keyAt (b : Byte) (k : Reg) : (s.setDt b).keyAt k = s.keyAt k := rfl
@[simp] theorem State.setDt_effAddr (b : Byte) (k : Nat) : (s.setDt b).effAddr k = s.effAddr k := rfl

/-! ### setSt -/

@[simp] theorem State.setSt_config (b : Byte) : (s.setSt b).config = s.config := rfl
@[simp] theorem State.setSt_v (b : Byte) : (s.setSt b).v = s.v := rfl
@[simp] theorem State.setSt_i (b : Byte) : (s.setSt b).i = s.i := rfl
@[simp] theorem State.setSt_pc (b : Byte) : (s.setSt b).pc = s.pc := rfl
@[simp] theorem State.setSt_stack (b : Byte) : (s.setSt b).stack = s.stack := rfl
@[simp] theorem State.setSt_sp (b : Byte) : (s.setSt b).sp = s.sp := rfl
@[simp] theorem State.setSt_dt (b : Byte) : (s.setSt b).dt = s.dt := rfl
@[simp] theorem State.setSt_st (b : Byte) : (s.setSt b).st = b := rfl
@[simp] theorem State.setSt_memory (b : Byte) : (s.setSt b).memory = s.memory := rfl
@[simp] theorem State.setSt_display (b : Byte) : (s.setSt b).display = s.display := rfl
@[simp] theorem State.setSt_key (b : Byte) : (s.setSt b).key = s.key := rfl
@[simp] theorem State.setSt_redraw (b : Byte) : (s.setSt b).redraw = s.redraw := rfl
@[simp] theorem State.setSt_fault (b : Byte) : (s.setSt b).fault = s.fault := rfl
@[simp] theorem State.setSt_randDraws (b : Byte) : (s.setSt b).randDraws = s.randDraws := rfl
@[simp] theorem State.setSt_getV (b : Byte) (q : Reg) : (s.setSt b).getV q = s.getV q := rfl
@[simp] theorem State.setSt_byteAt (b : Byte) (k : Nat) : (s.setSt b).byteAt k = s.byteAt k := rfl
@[simp] theorem State.setSt_cell (b : Byte) (k l : Nat) : (s.setSt b).cell k l = s.cell k l := rfl
@[simp] theorem State.setSt_keyAt (b : Byte) (k : Reg) : (s.setSt b).keyAt k = s.keyAt k := rfl
@[simp] theorem State.setSt_effAddr (b : Byte) (k : Nat) : (s.setSt b).effAddr k = s.effAddr k := rfl

/-! ### raiseRedraw -/

@[simp] theorem State.raiseRedraw_config : (s.raiseRedraw).config = s.config := rfl
@[simp] theorem State.raiseRedraw_v : (s.raiseRedraw).v = s.v := rfl
@[simp] theorem State.raiseRedraw_i : (s.raiseRedraw).i = s.i := rfl
@[simp] theorem State.raiseRedraw_pc : (s.raiseRedraw).pc = s.pc := rfl
@[simp] theorem State.raiseRedraw_stack : (s.raiseRedraw).stack = s.stack := rfl
@[simp] theorem State.raiseRedraw_sp : (s.raiseRedraw).sp = s.sp := rfl
@[simp] theorem State.raiseRedraw_dt : (s.raiseRedraw).dt = s.dt := rfl
@[simp] theorem State.raiseRedraw_st : (s.raiseRedraw).st = s.st := rfl
@[simp] theorem State.raiseRedraw_memory : (s.raiseRedraw).memory = s.memory := rfl
@[simp] theorem State.raiseRedraw_display : (s.raiseRedraw).display = s.display := rfl
@[simp] theorem State.raiseRedraw_key : (s.raiseRedraw).key = s.key := rfl
@[simp] theorem State.raiseRedraw_redraw : (s.raiseRedraw).redraw = true := rfl
@[simp] theorem State.raiseRedraw_fault : (s.raiseRedraw).fault = s.fault := rfl
@[simp] theorem State.raiseRedraw_randDraws : (s.raiseRedraw).randDraws = s.randDraws := rfl
@[simp] theorem State.raiseRedraw_getV (q : Reg) : (s.raiseRedraw).getV q = s.getV q := rfl
@[simp] theorem State.raiseRedraw_byteAt (k : Nat) : (s.raiseRedraw).byteAt k = s.byteAt k := rfl
@[simp] theorem State.raiseRedraw_cell (k l : Nat) : (s.raiseRedraw).cell k l = s.cell k l := rfl
@[simp] theorem State.raiseRedraw_keyAt (k : Reg) : (s.raiseRedraw).keyAt k = s.keyAt k := rfl
@[simp] theorem State.raiseRedraw_effAddr (k : Nat) : (s.raiseRedraw).effAddr k = s.effAddr k := rfl

/-! ### clearDisplay -/

@[simp] theorem State.clearDisplay_config : (s.clearDisplay).config = s.config := rfl
@[simp] theorem State.clearDisplay_v : (s.clearDisplay).v = s.v := rfl
@[simp] theorem State.clearDisplay_i : (s.clearDisplay).i = s.i := rfl
@[simp] theorem State.clearDisplay_pc : (s.clearDisplay).pc = s.pc := rfl
@[simp] theorem State.clearDisplay_stack : (s.clearDisplay).stack = s.stack := rfl
@[simp] theorem State.clearDisplay_sp : (s.clearDisplay).sp = s.sp := rfl
@[simp] theorem State.clearDisplay_dt : (s.clearDisplay).dt = s.dt := rfl
@[simp] theorem State.clearDisplay_st : (s.clearDisplay).st = s.st := rfl
@[simp] theorem State.clearDisplay_memory : (s.clearDisplay).memory = s.memory := rfl
@[simp] theorem State.clearDisplay_display : (s.clearDisplay).display = blankDisplay := rfl
@[simp] theorem State.clearDisplay_key : (s.clearDisplay).key = s.key := rfl
@[simp] theorem State.clearDisplay_redraw : (s.clearDisplay).redraw = s.redraw := rfl
@[simp] theorem State.clearDisplay_fault : (s.clearDisplay).fault = s.fault := rfl
@[simp] theorem State.clearDisplay_randDraws : (s.clearDisplay).randDraws = s.randDraws := rfl
@[simp] theorem State.clearDisplay_getV (q : Reg) : (s.clearDisplay).getV q = s.getV q := rfl
@[simp] theorem State.clearDisplay_byteAt (k : Nat) : (s.clearDisplay).byteAt k = s.byteAt k := rfl
@[simp] theorem State.clearDisplay_keyAt (k : Reg) : (s.clearDisplay).keyAt k = s.keyAt k := rfl
@[simp] theorem State.clearDisplay_effAddr (k : Nat) : (s.clearDisplay).effAddr k = s.effAddr k := rfl

/-! ### drawRandom -/

@[simp] theorem State.drawRandom_config : (s.drawRandom.2).config = s.config := rfl
@[simp] theorem State.drawRandom_v : (s.drawRandom.2).v = s.v := rfl
@[simp] theorem State.drawRandom_i : (s.drawRandom.2).i = s.i := rfl
@[simp] theorem State.drawRandom_pc : (s.drawRandom.2).pc = s.pc := rfl
@[simp] theorem State.drawRandom_stack : (s.drawRandom.2).stack = s.stack := rfl
@[simp] theorem State.drawRandom_sp : (s.drawRandom.2).sp = s.sp := rfl
@[simp] theorem State.drawRandom_dt : (s.drawRandom.2).dt = s.dt := rfl
@[simp] theorem State.drawRandom_st : (s.drawRandom.2).st = s.st := rfl
@[simp] theorem State.drawRandom_memory : (s.drawRandom.2).memory = s.memory := rfl
@[simp] theorem State.drawRandom_display : (s.drawRandom.2).display = s.display := rfl
@[simp] theorem State.drawRandom_key : (s.drawRandom.2).key = s.key := rfl
@[simp] theorem State.drawRandom_redraw : (s.drawRandom.2).redraw = s.redraw := rfl
@[simp] theorem State.drawRandom_fault : (s.drawRandom.2).fault = s.fault := rfl
@[simp] theorem State.drawRandom_randDraws : (s.drawRandom.2).randDraws = s.randDraws + 1 := rfl
@[simp] theorem State.drawRandom_getV (q : Reg) : (s.drawRandom.2).getV q = s.getV q := rfl
@[simp] theorem State.drawRandom_byteAt (k : Nat) : (s.drawRandom.2).byteAt k = s.byteAt k := rfl
@[simp] theorem State.drawRandom_cell (k l : Nat) : (s.drawRandom.2).cell k l = s.cell k l := rfl
@[simp] theorem State.drawRandom_keyAt (k : Reg) : (s.drawRandom.2).keyAt k = s.keyAt k := rfl
@[simp] theorem State.drawRandom_effAddr (k : Nat) : (s.drawRandom.2).effAddr k = s.effAddr k := rfl

/-! ### setByte -/

@[simp] theorem State.setByte_config (a : Nat) (x : Byte) : (s.setByte a x).config = s.config := rfl
@[simp] theorem State.setByte_v (a : Nat) (x : Byte) : (s.setByte a x).v = s.v := rfl
@[simp] theorem State.setByte_i (a : Nat) (x : Byte) : (s.setByte a x).i = s.i := rfl
@[simp] theorem State.setByte_pc (a : Nat) (x : Byte) : (s.setByte a x).pc = s.pc := rfl
@[simp] theorem State.setByte_stack (a : Nat) (x : Byte) : (s.setByte a x).stack = s.stack := rfl
@[simp] theorem State.setByte_sp (a : Nat) (x : Byte) : (s.setByte a x).sp = s.sp := rfl
@[simp] theorem State.setByte_dt (a : Nat) (x : Byte) : (s.setByte a x).dt = s.dt := rfl
@[simp] theorem State.setByte_st (a : Nat) (x : Byte) : (s.setByte a x).st = s.st := rfl
@[simp] theorem State.setByte_memory (a : Nat) (x : Byte) : (s.setByte a x).memory = Memory.write s.config s.memory a x := rfl
@[simp] theorem State.setByte_display (a : Nat) (x : Byte) : (s.setByte a x).display = s.display := rfl
@[simp] theorem State.setByte_key (a : Nat) (x : Byte) : (s.setByte a x).key = s.key := rfl
@[simp] theorem State.setByte_redraw (a : Nat) (x : Byte) : (s.setByte a x).redraw = s.redraw := rfl
@[simp] theorem State.setByte_fault (a : Nat) (x : Byte) : (s.setByte a x).fault = s.fault := rfl
@[simp] theorem State.setByte_randDraws (a : Nat) (x : Byte) : (s.setByte a x).randDraws = s.randDraws := rfl
@[simp] theorem State.setByte_getV (a : Nat) (x : Byte) (q : Reg) : (s.setByte a x).getV q = s.getV q := rfl
@[simp] theorem State.setByte_cell (a : Nat) (x : Byte) (k l : Nat) : (s.setByte a x).cell k l = s.cell k l := rfl
@[simp] theorem State.setByte_keyAt (a : Nat) (x : Byte) (k : Reg) : (s.setByte a x).keyAt k = s.keyAt k := rfl
@[simp] theorem State.setByte_effAddr (a : Nat) (x : Byte) (k : Nat) : (s.setByte a x).effAddr k = s.effAddr k := rfl

/-! ### raiseFault -/

@[simp] theorem State.raiseFault_config (c : FaultCause) (w : Option Word) : (raiseFault s c w).config = s.config := rfl
@[simp] theorem State.raiseFault_v (c : FaultCause) (w : Option Word) : (raiseFault s c w).v = s.v := rfl
@[simp] theorem State.raiseFault_i (c : FaultCause) (w : Option Word) : (raiseFault s c w).i = s.i := rfl
@[simp] theorem State.raiseFault_pc (c : FaultCause) (w : Option Word) : (raiseFault s c w).pc = s.pc := rfl
@[simp] theorem State.raiseFault_stack (c : FaultCause) (w : Option Word) : (raiseFault s c w).stack = s.stack := rfl
@[simp] theorem State.raiseFault_sp (c : FaultCause) (w : Option Word) : (raiseFault s c w).sp = s.sp := rfl
@[simp] theorem State.raiseFault_dt (c : FaultCause) (w : Option Word) : (raiseFault s c w).dt = s.dt := rfl
@[simp] theorem State.raiseFault_st (c : FaultCause) (w : Option Word) : (raiseFault s c w).st = s.st := rfl
@[simp] theorem State.raiseFault_memory (c : FaultCause) (w : Option Word) : (raiseFault s c w).memory = s.memory := rfl
@[simp] theorem State.raiseFault_display (c : FaultCause) (w : Option Word) : (raiseFault s c w).display = s.display := rfl
@[simp] theorem State.raiseFault_key (c : FaultCause) (w : Option Word) : (raiseFault s c w).key = s.key := rfl
@[simp] theorem State.raiseFault_redraw (c : FaultCause) (w : Option Word) : (raiseFault s c w).redraw = s.redraw := rfl
@[simp] theorem State.raiseFault_fault (c : FaultCause) (w : Option Word) : (raiseFault s c w).fault = some { cause := c, pc := s.pc, word := w } := rfl
@[simp] theorem State.raiseFault_randDraws (c : FaultCause) (w : Option Word) : (raiseFault s c w).randDraws = s.randDraws := rfl
@[simp] theorem State.raiseFault_getV (c : FaultCause) (w : Option Word) (q : Reg) : (raiseFault s c w).getV q = s.getV q := rfl
@[simp] theorem State.raiseFault_byteAt (c : FaultCause) (w : Option Word) (k : Nat) : (raiseFault s c w).byteAt k = s.byteAt k := rfl
@[simp] theorem State.raiseFault_cell (c : FaultCause) (w : Option Word) (k l : Nat) : (raiseFault s c w).cell k l = s.cell k l := rfl
@[simp] theorem State.raiseFault_keyAt (c : FaultCause) (w : Option Word) (k : Reg) : (raiseFault s c w).keyAt k = s.keyAt k := rfl
@[simp] theorem State.raiseFault_effAddr (c : FaultCause) (w : Option Word) (k : Nat) : (raiseFault s c w).effAddr k = s.effAddr k := rfl

/-! ### tick -/

@[simp] theorem State.tick_config : (tick s).config = s.config := rfl
@[simp] theorem State.tick_v : (tick s).v = s.v := rfl
@[simp] theorem State.tick_i : (tick s).i = s.i := rfl
@[simp] theorem State.tick_pc : (tick s).pc = s.pc := rfl
@[simp] theorem State.tick_stack : (tick s).stack = s.stack := rfl
@[simp] theorem State.tick_sp : (tick s).sp = s.sp := rfl
@[simp] theorem State.tick_dt : (tick s).dt = countDown s.dt := rfl
@[simp] theorem State.tick_st : (tick s).st = countDown s.st := rfl
@[simp] theorem State.tick_memory : (tick s).memory = s.memory := rfl
@[simp] theorem State.tick_display : (tick s).display = s.display := rfl
@[simp] theorem State.tick_key : (tick s).key = s.key := rfl
@[simp] theorem State.tick_redraw : (tick s).redraw = s.redraw := rfl
@[simp] theorem State.tick_fault : (tick s).fault = s.fault := rfl
@[simp] theorem State.tick_randDraws : (tick s).randDraws = s.randDraws := rfl
@[simp] theorem State.tick_getV (q : Reg) : (tick s).getV q = s.getV q := rfl
@[simp] theorem State.tick_byteAt (k : Nat) : (tick s).byteAt k = s.byteAt k := rfl
@[simp] theorem State.tick_cell (k l : Nat) : (tick s).cell k l = s.cell k l := rfl
@[simp] theorem State.tick_keyAt (k : Reg) : (tick s).keyAt k = s.keyAt k := rfl
@[simp] theorem State.tick_effAddr (k : Nat) : (tick s).effAddr k = s.effAddr k := rfl

/-! ### setCell, which writes nothing outside the grid -/

@[simp] theorem State.setCell_config (r c : Nat) (b : Bool) : (s.setCell r c b).config = s.config := by
  unfold State.setCell; split <;> rfl
@[simp] theorem State.setCell_v (r c : Nat) (b : Bool) : (s.setCell r c b).v = s.v := by
  unfold State.setCell; split <;> rfl
@[simp] theorem State.setCell_i (r c : Nat) (b : Bool) : (s.setCell r c b).i = s.i := by
  unfold State.setCell; split <;> rfl
@[simp] theorem State.setCell_pc (r c : Nat) (b : Bool) : (s.setCell r c b).pc = s.pc := by
  unfold State.setCell; split <;> rfl
@[simp] theorem State.setCell_stack (r c : Nat) (b : Bool) : (s.setCell r c b).stack = s.stack := by
  unfold State.setCell; split <;> rfl
@[simp] theorem State.setCell_sp (r c : Nat) (b : Bool) : (s.setCell r c b).sp = s.sp := by
  unfold State.setCell; split <;> rfl
@[simp] theorem State.setCell_dt (r c : Nat) (b : Bool) : (s.setCell r c b).dt = s.dt := by
  unfold State.setCell; split <;> rfl
@[simp] theorem State.setCell_st (r c : Nat) (b : Bool) : (s.setCell r c b).st = s.st := by
  unfold State.setCell; split <;> rfl
@[simp] theorem State.setCell_memory (r c : Nat) (b : Bool) : (s.setCell r c b).memory = s.memory := by
  unfold State.setCell; split <;> rfl
@[simp] theorem State.setCell_key (r c : Nat) (b : Bool) : (s.setCell r c b).key = s.key := by
  unfold State.setCell; split <;> rfl
@[simp] theorem State.setCell_redraw (r c : Nat) (b : Bool) : (s.setCell r c b).redraw = s.redraw := by
  unfold State.setCell; split <;> rfl
@[simp] theorem State.setCell_fault (r c : Nat) (b : Bool) : (s.setCell r c b).fault = s.fault := by
  unfold State.setCell; split <;> rfl
@[simp] theorem State.setCell_randDraws (r c : Nat) (b : Bool) : (s.setCell r c b).randDraws = s.randDraws := by
  unfold State.setCell; split <;> rfl
@[simp] theorem State.setCell_getV (r c : Nat) (b : Bool) (q : Reg) : (s.setCell r c b).getV q = s.getV q := by
  unfold State.setCell; split <;> rfl
@[simp] theorem State.setCell_byteAt (r c : Nat) (b : Bool) (k : Nat) : (s.setCell r c b).byteAt k = s.byteAt k := by
  unfold State.setCell; split <;> rfl
@[simp] theorem State.setCell_keyAt (r c : Nat) (b : Bool) (k : Reg) : (s.setCell r c b).keyAt k = s.keyAt k := by
  unfold State.setCell; split <;> rfl
@[simp] theorem State.setCell_effAddr (r c : Nat) (b : Bool) (k : Nat) : (s.setCell r c b).effAddr k = s.effAddr k := by
  unfold State.setCell; split <;> rfl

/-! ### Readers of what an update writes -/

theorem State.setV_getV (r q : Reg) (b : Byte) : (s.setV r b).getV q = if q = r then b else s.getV q := by
  simp only [State.getV, State.setV, Vector.getElem_set, Fin.ext_iff, eq_comm (a := q.val)]

@[simp] theorem State.setV_getV_self (r : Reg) (b : Byte) : (s.setV r b).getV r = b := by
  rw [State.setV_getV, if_pos rfl]

theorem State.setV_getV_ne {r q : Reg} (h : q ≠ r) (b : Byte) : (s.setV r b).getV q = s.getV q := by
  rw [State.setV_getV, if_neg h]

theorem State.setFlag_getV (q : Reg) (f : Byte) :
    (s.setFlag f).getV q = if q = flagReg then f else s.getV q := s.setV_getV flagReg q f

theorem State.setCell_cell (r c k l : Nat) (b : Bool) :
    (s.setCell r c b).cell k l = if k = r ∧ l = c ∧ r < 32 ∧ c < 64 then b else s.cell k l := by
  unfold State.cell State.setCell
  by_cases hrc : r < 32 ∧ c < 64
  · rw [dif_pos hrc]
    by_cases hkl : k < 32 ∧ l < 64
    · rw [dif_pos hkl, dif_pos hkl]
      dsimp only
      by_cases hk : k = r
      · subst hk
        by_cases hl : l = c
        · subst hl
          simp [hrc]
        · simp [hl, Ne.symm hl]
      · simp [hk, Ne.symm hk]
    · rw [dif_neg hkl, dif_neg hkl, if_neg]
      rintro ⟨rfl, rfl, -⟩
      exact hkl hrc
  · rw [dif_neg hrc, if_neg]
    rintro ⟨-, -, h⟩
    exact hrc h

@[simp] theorem State.clearDisplay_cell (k l : Nat) : s.clearDisplay.cell k l = false := by
  unfold State.cell State.clearDisplay blankDisplay
  split <;> simp

end Sys2Proof.Machine
end

