-- ==== Sys2Proof/Laws/Memory.lean ====
section
/-!
SUPPORT. The laws of memory as a list of cells: a read after a write, and the canonical form kept by every operation
(spec/20_memory.md R42, R43, R47).
-/

namespace Sys2Proof.Machine

/-! ### Reading after erasing, inserting, writing -/

theorem Memory.read_erase_self (c : Config) (m : Memory) (a : Nat) :
    Memory.read c (Memory.erase m a) a = c.initByte a := by
  induction m with
  | nil => rfl
  | cons e m ih =>
    obtain ⟨b, x⟩ := e
    unfold Memory.erase
    split
    · exact ih
    · rename_i h
      simp only [Memory.read, if_neg h, ih]

theorem Memory.read_erase_ne (c : Config) (m : Memory) {a k : Nat} (h : k ≠ a) :
    Memory.read c (Memory.erase m a) k = Memory.read c m k := by
  induction m with
  | nil => rfl
  | cons e m ih =>
    obtain ⟨b, x⟩ := e
    unfold Memory.erase
    split
    · rename_i hb
      subst hb
      rw [ih, Memory.read, if_neg (Ne.symm h)]
    · simp only [Memory.read, ih]

theorem Memory.read_insert_ne (c : Config) (m : Memory) {a k : Nat} (h : k ≠ a) (x : Byte) :
    Memory.read c (Memory.insert m a x) k = Memory.read c m k := by
  induction m with
  | nil => simp [Memory.insert, Memory.read, Ne.symm h]
  | cons e m ih =>
    obtain ⟨b, y⟩ := e
    unfold Memory.insert
    split
    · rw [Memory.read, if_neg (Ne.symm h)]
    · simp only [Memory.read, ih]

theorem Memory.read_insert_erase_self (c : Config) (m : Memory) (a : Nat) (x : Byte) :
    Memory.read c (Memory.insert (Memory.erase m a) a x) a = x := by
  induction m with
  | nil => simp [Memory.erase, Memory.insert, Memory.read]
  | cons e m ih =>
    obtain ⟨b, y⟩ := e
    unfold Memory.erase
    split
    · exact ih
    · rename_i h
      unfold Memory.insert
      split
      · simp [Memory.read]
      · simp only [Memory.read, if_neg h, ih]

/-- A read after a write: the byte written at its address, the old byte at every other. -/
theorem Memory.read_write (c : Config) (m : Memory) (a k : Nat) (x : Byte) :
    Memory.read c (Memory.write c m a x) k = if k = a then x else Memory.read c m k := by
  unfold Memory.write
  by_cases hk : k = a
  · subst hk
    rw [if_pos rfl]
    split
    · rename_i hx
      rw [Memory.read_erase_self, hx]
    · exact Memory.read_insert_erase_self c m k x
  · rw [if_neg hk]
    split
    · exact Memory.read_erase_ne c m hk
    · rw [Memory.read_insert_ne c _ hk, Memory.read_erase_ne c m hk]

theorem State.setByte_byteAt (s : State) (a k : Nat) (x : Byte) :
    (s.setByte a x).byteAt k = if k = a then x else s.byteAt k :=
  Memory.read_write s.config s.memory a k x

/-! ### The canonical form -/

theorem Memory.rising_iff_pairwise (m : Memory) :
    Memory.rising m = true ↔ m.Pairwise fun d e => d.1 < e.1 := by
  induction m with
  | nil => simp [Memory.rising]
  | cons d m ih =>
    cases m with
    | nil => simp [Memory.rising]
    | cons e m =>
      obtain ⟨a, x⟩ := d
      obtain ⟨b, y⟩ := e
      rw [Memory.rising, Bool.and_eq_true, decide_eq_true_iff, ih]
      simp only [List.pairwise_cons (a := (a, x)), List.pairwise_cons (a := (b, y))]
      constructor
      · rintro ⟨hab, hm, hp⟩
        refine ⟨fun e he => ?_, hm, hp⟩
        rcases List.mem_cons.mp he with rfl | he
        · exact hab
        · exact lt_trans hab (hm e he)
      · rintro ⟨ha, hm, hp⟩
        exact ⟨ha _ List.mem_cons_self, hm, hp⟩

theorem Memory.wf_iff (c : Config) (m : Memory) :
    Memory.wf c m = true ↔
      (m.Pairwise fun d e => d.1 < e.1) ∧ ∀ e ∈ m, e.1 < c.ramSize ∧ e.2 ≠ c.initByte e.1 := by
  simp [Memory.wf, Memory.rising_iff_pairwise]

theorem Memory.erase_eq_filter (m : Memory) (a : Nat) : Memory.erase m a = m.filter fun e => decide (e.1 ≠ a) := by
  induction m with
  | nil => rfl
  | cons e m ih =>
    obtain ⟨b, x⟩ := e
    unfold Memory.erase
    split <;> rename_i h <;> simp [h, ih]

theorem Memory.mem_insert (m : Memory) (a : Nat) (x : Byte) (e : Host.Cell) :
    e ∈ Memory.insert m a x ↔ e = (a, x) ∨ e ∈ m := by
  induction m with
  | nil => simp [Memory.insert]
  | cons d m ih =>
    obtain ⟨b, y⟩ := d
    unfold Memory.insert
    split
    · simp
    · simp only [List.mem_cons, ih]
      tauto

theorem Memory.insert_pairwise (m : Memory) (a : Nat) (x : Byte) (hm : m.Pairwise fun d e => d.1 < e.1)
    (ha : ∀ e ∈ m, e.1 ≠ a) : (Memory.insert m a x).Pairwise fun d e => d.1 < e.1 := by
  induction m with
  | nil => simp [Memory.insert]
  | cons d m ih =>
    obtain ⟨b, y⟩ := d
    rw [List.pairwise_cons] at hm
    have hb : b ≠ a := ha _ List.mem_cons_self
    unfold Memory.insert
    split
    · rename_i hab
      rw [List.pairwise_cons, List.pairwise_cons]
      refine ⟨fun e he => ?_, hm⟩
      rcases List.mem_cons.mp he with rfl | he
      · exact hab
      · exact lt_trans hab (hm.1 e he)
    · rw [List.pairwise_cons]
      refine ⟨fun e he => ?_, ih hm.2 fun e he => ha e (List.mem_cons_of_mem _ he)⟩
      rcases (Memory.mem_insert m a x e).mp he with rfl | he
      · simp only; omega
      · exact hm.1 e he

/-- Every write inside memory keeps the canonical form. -/
theorem Memory.write_wf (c : Config) (m : Memory) (a : Nat) (x : Byte) (ha : a < c.ramSize)
    (h : Memory.wf c m = true) : Memory.wf c (Memory.write c m a x) = true := by
  rw [Memory.wf_iff] at h ⊢
  have hp : (Memory.erase m a).Pairwise fun d e => d.1 < e.1 := by
    rw [Memory.erase_eq_filter]; exact h.1.filter _
  have hmem : ∀ e ∈ Memory.erase m a, e ∈ m ∧ e.1 ≠ a := by
    intro e he
    rw [Memory.erase_eq_filter, List.mem_filter] at he
    exact ⟨he.1, by simpa using he.2⟩
  unfold Memory.write
  split
  · exact ⟨hp, fun e he => h.2 e (hmem e he).1⟩
  · rename_i hx
    refine ⟨Memory.insert_pairwise _ a x hp fun e he => (hmem e he).2, fun e he => ?_⟩
    rcases (Memory.mem_insert _ a x e).mp he with rfl | he
    · exact ⟨ha, hx⟩
    · exact h.2 e (hmem e he).1

theorem State.setByte_wf (s : State) (a : Nat) (x : Byte) (ha : a < s.config.ramSize)
    (h : Memory.wf s.config s.memory = true) :
    Memory.wf (s.setByte a x).config (s.setByte a x).memory = true :=
  Memory.write_wf s.config s.memory a x ha h

/-- In a canonical list, an entry is exactly an address that reads as something else than it does unlisted. -/
theorem Memory.mem_iff_read (c : Config) (m : Memory) (h : Memory.wf c m = true) (a : Nat) (x : Byte) :
    (a, x) ∈ m ↔ Memory.read c m a = x ∧ x ≠ c.initByte a := by
  rw [Memory.wf_iff] at h
  obtain ⟨hp, hv⟩ := h
  induction m with
  | nil => simp only [List.not_mem_nil, Memory.read, false_iff, not_and, not_not]; exact Eq.symm
  | cons e m ih =>
    obtain ⟨b, y⟩ := e
    rw [List.pairwise_cons] at hp
    have ih := ih hp.2 fun e he => hv e (List.mem_cons_of_mem _ he)
    have hy : y ≠ c.initByte b := (hv _ List.mem_cons_self).2
    by_cases hb : b = a
    · subst hb
      have hno : (b, x) ∉ m := fun hm => lt_irrefl b (hp.1 (b, x) hm)
      simp only [List.mem_cons, Prod.mk.injEq, true_and, hno, or_false, Memory.read, if_pos]
      constructor
      · rintro rfl; exact ⟨rfl, hy⟩
      · exact fun h => h.1.symm
    · simp only [List.mem_cons, Prod.mk.injEq, Ne.symm hb, false_and, false_or, Memory.read, if_neg hb, ih]

/-- Two canonical memories that read alike are the same list: equal memories are equal data. -/
theorem Memory.ext_of_read (c : Config) (m n : Memory) (hm : Memory.wf c m = true) (hn : Memory.wf c n = true)
    (h : ∀ a, Memory.read c m a = Memory.read c n a) : m = n := by
  have hmem : ∀ e, e ∈ m ↔ e ∈ n := fun ⟨a, x⟩ => by
    rw [Memory.mem_iff_read c m hm, Memory.mem_iff_read c n hn, h]
  rw [Memory.wf_iff] at hm hn
  have nodup : ∀ l : Memory, (l.Pairwise fun d e => d.1 < e.1) → l.Nodup := fun l hl =>
    hl.imp fun {d e} hde he => by rw [he] at hde; exact lt_irrefl _ hde
  exact ((List.perm_ext_iff_of_nodup (nodup m hm.1) (nodup n hn.1)).mpr hmem).eq_of_pairwise
    (fun d e _ _ hde hed => absurd hed (lt_asymm hde)) hm.1 hn.1

end Sys2Proof.Machine
end

