-- ==== Sys2Proof/Laws/Ops.lean ====
section
/-!
SUPPORT. One specification per shared operation: what it answers, in the terms of its operands, so that a proof cites it
and does not unfold the operation.
-/

namespace Sys2Proof.Machine

variable {s t : State}

/-! ### The end of an execute phase -/

@[simp] theorem complete_ok (i : Instr) (s t : State) : complete i s (.ok t) = .next t := rfl

@[simp] theorem complete_error (i : Instr) (s : State) (c : FaultCause) :
    complete i s (.error c) = .next (raiseFault s c (some (encode i))) := rfl

/-- An execute phase completes with a state or enters a fault. -/
theorem complete_cases (i : Instr) (s : State) (r : Except FaultCause State) :
    (∃ t, r = .ok t ∧ complete i s r = .next t) ∨
      ∃ c, r = .error c ∧ complete i s r = .next (raiseFault s c (some (encode i))) := by
  cases r with
  | ok t => exact .inl ⟨t, rfl, rfl⟩
  | error c => exact .inr ⟨c, rfl, rfl⟩

/-! ### Flags and operands as numbers -/

@[simp] theorem flagByte_toNat (c : Bool) : (flagByte c).toNat = if c then 1 else 0 := by cases c <;> rfl

theorem carryFlag_toNat (a b : Byte) : (carryFlag a b).toNat = if a.toNat + b.toNat > 255 then 1 else 0 := by
  simp [carryFlag]

theorem noBorrowFlag_toNat (a b : Byte) : (noBorrowFlag a b).toNat = if b.toNat > a.toNat then 0 else 1 := by
  simp only [noBorrowFlag, flagByte_toNat]
  split <;> split <;> simp_all

theorem lowBitFlag_toNat (a : Byte) : (lowBitFlag a).toNat = a.toNat % 2 := by
  simp [lowBitFlag, Nat.and_one_is_mod]

theorem highBitFlag_toNat (a : Byte) : (highBitFlag a).toNat = a.toNat / 128 := by
  have h : a.toNat < 256 := a.isLt
  simp only [highBitFlag, BitVec.toNat_and, BitVec.toNat_ushiftRight, Nat.shiftRight_eq_div_pow]
  rw [show BitVec.toNat (1 : Byte) = 1 from rfl, Nat.and_one_is_mod]
  omega

theorem indexFlag_toNat (i : Word) (b : Byte) :
    (indexFlag i b).toNat = if i.toNat + b.toNat > 0xFFF then 1 else 0 := by
  simp [indexFlag]

@[simp] theorem zextAddr_toNat (nnn : Addr) : (zextAddr nnn).toNat = nnn.toNat := by
  have h : nnn.toNat < 4096 := nnn.isLt
  simp only [zextAddr, BitVec.toNat_setWidth]
  omega

@[simp] theorem zextByte_toNat (b : Byte) : (zextByte b).toNat = b.toNat := by
  have h : b.toNat < 256 := b.isLt
  simp only [zextByte, BitVec.toNat_setWidth]
  omega

theorem State.advance_advancesBy (s : State) : (s.advance).pc.toNat = (s.pc.toNat + 2) % 65536 := by
  simp [BitVec.toNat_add]

theorem State.skipIf_advancesBy (s : State) (c : Bool) :
    (s.skipIf c).pc.toNat = (s.pc.toNat + if c then 4 else 2) % 65536 := by
  cases c <;> simp [BitVec.toNat_add]

/-- The registers `0 .. x` are the first `x + 1` of all sixteen, each at its own position. -/
theorem regsUpTo_getElem? (x : Reg) (k : Nat) :
    (regsUpTo x)[k]? = if h : k < x.val + 1 then some ⟨k, by omega⟩ else none := by
  by_cases hk : k < 16
  · revert x; interval_cases k <;> decide
  · have hx : (regsUpTo x).length ≤ 16 := (List.length_filter_le _ _).trans (by simp)
    rw [List.getElem?_eq_none (by omega), dif_neg (by omega)]

@[simp] theorem regsUpTo_length (x : Reg) : (regsUpTo x).length = x.val + 1 := by revert x; decide

theorem mem_regsUpTo (x k : Reg) : k ∈ regsUpTo x ↔ k ≤ x := by simp [regsUpTo]

/-! ### Memory -/

theorem memRead_inRange {a : Nat} (h : a < s.config.ramSize) : memRead s a = .ok (s.byteAt a) :=
  if_neg (by omega)

theorem memRead_outOfRange {a : Nat} (h : s.config.ramSize ≤ a) : memRead s a = .error (.memoryFault .read a) := by
  rw [memRead, if_pos h, memoryFaultAt, max_eq_left h]

theorem memWrite_inRange {a : Nat} (h : a < s.config.ramSize) (x : Byte) :
    memWrite s a x = .ok (s.setByte a x) := if_neg (by omega)

theorem memWrite_outOfRange {a : Nat} (h : s.config.ramSize ≤ a) (x : Byte) :
    memWrite s a x = .error (.memoryFault .write a) := by
  rw [memWrite, if_pos h, memoryFaultAt, max_eq_left h]

theorem fetch_inRange (h : s.pc.toNat + 1 < s.config.ramSize) :
    fetch s = .ok (wordOfBytes (s.byteAt s.pc.toNat) (s.byteAt (s.pc.toNat + 1))) := if_neg (by omega)

theorem fetch_outOfRange (h : s.config.ramSize ≤ s.pc.toNat + 1) :
    fetch s = .error (.memoryFault .fetch (max s.pc.toNat s.config.ramSize)) := if_pos h

theorem fetch_ok_inRange {w : Word} (h : fetch s = .ok w) : s.pc.toNat + 1 < s.config.ramSize := by
  by_contra hn
  rw [fetch_outOfRange (by omega)] at h
  cases h

theorem wordOfBytes_toNat (hi lo : Byte) : (wordOfBytes hi lo).toNat = 256 * hi.toNat + lo.toNat := by
  have h : lo.toNat < 2 ^ 8 := lo.isLt
  rw [wordOfBytes, BitVec.toNat_append, ← Nat.shiftLeft_add_eq_or_of_lt h, Nat.shiftLeft_eq, Nat.mul_comm]

/-! ### The stack, the display, the keys -/

theorem push_free {w : Word} (h : s.sp < s.config.stackDepth) :
    push s w = .ok { s with stack := s.stack.set s.sp w, sp := s.sp + 1 } := if_neg (by omega)

theorem push_full {w : Word} (h : s.config.stackDepth ≤ s.sp) : push s w = .error (.stackOverflow w) := if_pos h

theorem pop_held (h : 0 < s.sp) : pop s = .ok (s.stack.getD (s.sp - 1) 0, { s with sp := s.sp - 1 }) :=
  if_neg (by omega)

theorem pop_empty (h : s.sp = 0) : pop s = .error .stackUnderflow := if_pos h

theorem offGrid_iff (r c : Nat) : offGrid r c = true ↔ 32 ≤ r ∨ 64 ≤ c := by simp [offGrid]

theorem offGrid_eq_false (r c : Nat) : offGrid r c = false ↔ r < 32 ∧ c < 64 := by simp [offGrid]

theorem keyRead_inRange (k : Reg) : keyRead s k.val = .ok (s.keyAt k) := dif_pos k.isLt

theorem keyRead_outOfRange {k : Nat} (h : 16 ≤ k) : keyRead s k = .error (.keyIndexFault k) := dif_neg (by omega)

/-! ### The tick -/

theorem countDown_toNat (b : Byte) : (countDown b).toNat = b.toNat - 1 := by
  revert b; decide

theorem finishStep_clear (h : t.fault = none) : finishStep t = tick t := by
  rw [finishStep, State.halted, h]; rfl

theorem finishStep_latched {r : FaultRecord} (h : t.fault = some r) : finishStep t = t := by
  rw [finishStep, State.halted, h]; rfl

end Sys2Proof.Machine
end

