-- ==== Sys2Proof/Laws/Drawing.lean ====
section
/-!
SUPPORT. The sprite compositor in closed form: which cells a row and a sprite toggle, what the collision flag becomes, and
which access faults first (spec/45_display.md R151 to R153, 60_exceptions.md R178).
-/

namespace Sys2Proof.Machine

/-- From `s` to `t` only the display and `VF` change. -/
structure OnlyDraws (s t : State) : Prop where
  parts : t = { s with v := t.v, display := t.display }
  regs : ∀ q : Reg, q ≠ 15 → t.getV q = s.getV q

theorem OnlyDraws.rfl' (s : State) : OnlyDraws s s := ⟨rfl, fun _ _ => rfl⟩

theorem OnlyDraws.trans' {s t u : State} (h : OnlyDraws s t) (k : OnlyDraws t u) : OnlyDraws s u :=
  ⟨by rw [k.parts, h.parts], fun q hq => (k.regs q hq).trans (h.regs q hq)⟩

theorem OnlyDraws.byteAt {s t : State} (h : OnlyDraws s t) (a : Nat) : t.byteAt a = s.byteAt a := by
  rw [h.parts]; rfl

theorem OnlyDraws.config {s t : State} (h : OnlyDraws s t) : t.config = s.config := by rw [h.parts]

theorem OnlyDraws.i {s t : State} (h : OnlyDraws s t) : t.i = s.i := by rw [h.parts]

theorem setFlag_onlyDraws (s : State) (f : Byte) : OnlyDraws s (s.setFlag f) :=
  ⟨rfl, fun q hq => by rw [State.setFlag_getV, if_neg hq]⟩

theorem setCell_onlyDraws (s : State) (r c : Nat) (b : Bool) : OnlyDraws s (s.setCell r c b) :=
  ⟨by unfold State.setCell; split <;> rfl, fun q _ => State.setCell_getV s r c b q⟩

/-! ### One cell -/

/-- Toggling a cell inside the grid: the cell is inverted, and `VF` becomes 1 when it was 1. -/
theorem toggleCell_inGrid (s : State) (r c : Nat) (hr : r < 32) (hc : c < 64) :
    ∃ t, toggleCell r c s = .ok t ∧ OnlyDraws s t ∧
      (∀ k l, t.cell k l = if k = r ∧ l = c then !s.cell r c else s.cell k l) ∧
      t.getV 15 = if s.cell r c = true then 1 else s.getV 15 := by
  have hg : offGrid r c = false := (offGrid_eq_false r c).mpr ⟨hr, hc⟩
  refine ⟨(if s.cell r c then s.setFlag 1 else s).setCell r c (!s.cell r c), ?_, ?_, fun k l => ?_, ?_⟩
  · simp only [toggleCell, dispRead, dispWrite, hg]
    rfl
  · refine OnlyDraws.trans' ?_ (setCell_onlyDraws _ r c _)
    split
    · exact setFlag_onlyDraws s 1
    · exact .rfl' s
  · rw [State.setCell_cell]
    by_cases h : k = r ∧ l = c
    · rw [if_pos ⟨h.1, h.2, hr, hc⟩, if_pos h]
    · rw [if_neg fun h' => h ⟨h'.1, h'.2.1⟩, if_neg h]
      split <;> rfl
  · rw [State.setCell_getV]
    split
    · exact State.setFlag_getV s 15 1
    · rfl

theorem toggleCell_offGrid (s : State) (r c : Nat) (h : 32 ≤ r ∨ 64 ≤ c) :
    toggleCell r c s = .error (.displayFault r c) := by
  simp only [toggleCell, dispRead, (offGrid_iff r c).mpr h]
  rfl

/-! ### One row -/

/-- The pixels of the list that are set in the row land on column `l`. -/
def RowLands (row : Byte) (x : Nat) (is : List Nat) (l : Nat) : Prop := ∃ i ∈ is, l = x + i ∧ spriteBit row i = true

/-- A row whose set bits land inside the grid: each cell under one is inverted, the others keep their value, and `VF`
becomes 1 when one of them was 1. -/
theorem drawRow_fits (row : Byte) (r x : Nat) (is : List Nat) (s : State) (hn : is.Nodup)
    (h : ∀ i ∈ is, spriteBit row i = true → r < 32 ∧ x + i < 64) :
    ∃ t, drawRow row r x is s = .ok t ∧ OnlyDraws s t ∧
      (∀ k l, (k = r ∧ RowLands row x is l → t.cell k l = !s.cell k l) ∧
        (¬(k = r ∧ RowLands row x is l) → t.cell k l = s.cell k l)) ∧
      (((∃ l, RowLands row x is l ∧ s.cell r l = true) ∧ t.getV 15 = 1) ∨
        ((¬∃ l, RowLands row x is l ∧ s.cell r l = true) ∧ t.getV 15 = s.getV 15)) := by
  induction is generalizing s with
  | nil =>
    refine ⟨s, rfl, .rfl' s, fun k l => ⟨?_, fun _ => rfl⟩, .inr ⟨?_, rfl⟩⟩
    · rintro ⟨-, i, hi, -⟩; exact absurd hi List.not_mem_nil
    · rintro ⟨l, ⟨i, hi, -⟩, -⟩; exact absurd hi List.not_mem_nil
  | cons i is ih =>
    rw [List.nodup_cons] at hn
    have htail : ∀ j ∈ is, spriteBit row j = true → r < 32 ∧ x + j < 64 :=
      fun j hj => h j (List.mem_cons_of_mem _ hj)
    by_cases hb : spriteBit row i = true
    · obtain ⟨hr, hc⟩ := h i List.mem_cons_self hb
      obtain ⟨u, hu, hou, hcu, hvu⟩ := toggleCell_inGrid s r (x + i) hr hc
      obtain ⟨t, ht, hot, hct, hvt⟩ := ih u hn.2 htail
      have hcons : ∀ l, RowLands row x (i :: is) l ↔ l = x + i ∨ RowLands row x is l := by
        intro l
        constructor
        · rintro ⟨j, hj, hl, hbj⟩
          rcases List.mem_cons.mp hj with rfl | hj
          · exact .inl hl
          · exact .inr ⟨j, hj, hl, hbj⟩
        · rintro (hl | ⟨j, hj, hl, hbj⟩)
          · exact ⟨i, List.mem_cons_self, hl, hb⟩
          · exact ⟨j, List.mem_cons_of_mem _ hj, hl, hbj⟩
      have hfresh : ∀ l, RowLands row x is l → l ≠ x + i := by
        rintro l ⟨j, hj, rfl, -⟩ heq
        exact hn.1 ((show i = j by omega) ▸ hj)
      have hsame : ∀ l, RowLands row x is l → u.cell r l = s.cell r l := fun l hl => by
        rw [hcu, if_neg fun hh => hfresh l hl hh.2]
      refine ⟨t, ?_, hou.trans' hot, fun k l => ⟨?_, fun hk => ?_⟩, ?_⟩
      · simp only [drawRow, hb, if_true, hu, ht]
      · rintro ⟨rfl, hl⟩
        by_cases hl' : RowLands row x is l
        · rw [(hct k l).1 ⟨rfl, hl'⟩, hsame l hl']
        · obtain rfl := ((hcons l).mp hl).resolve_right hl'
          rw [(hct k _).2 fun hh => hl' hh.2, hcu, if_pos ⟨rfl, rfl⟩]
      · rw [hcons] at hk
        rw [(hct k l).2 fun hh => hk ⟨hh.1, .inr hh.2⟩, hcu, if_neg fun hh => hk ⟨hh.1, .inl hh.2⟩]
      · rcases hvt with ⟨⟨l, hl, hsl⟩, hv⟩ | ⟨hno, hv⟩
        · exact .inl ⟨⟨l, (hcons l).mpr (.inr hl), by rw [← hsame l hl]; exact hsl⟩, hv⟩
        · by_cases hold : s.cell r (x + i) = true
          · rw [if_pos hold] at hvu
            exact .inl ⟨⟨x + i, (hcons _).mpr (.inl rfl), hold⟩, hv.trans hvu⟩
          · rw [if_neg hold] at hvu
            refine .inr ⟨?_, hv.trans hvu⟩
            rintro ⟨l, hl, hsl⟩
            rcases (hcons l).mp hl with rfl | hl
            · exact hold hsl
            · exact hno ⟨l, hl, by rw [hsame l hl]; exact hsl⟩
    · obtain ⟨t, ht, hot, hct, hvt⟩ := ih s hn.2 htail
      have hcons : ∀ l, RowLands row x (i :: is) l ↔ RowLands row x is l := by
        intro l
        constructor
        · rintro ⟨j, hj, hl, hbj⟩
          rcases List.mem_cons.mp hj with rfl | hj
          · exact absurd hbj hb
          · exact ⟨j, hj, hl, hbj⟩
        · rintro ⟨j, hj, hl, hbj⟩
          exact ⟨j, List.mem_cons_of_mem _ hj, hl, hbj⟩
      refine ⟨t, ?_, hot, ?_, ?_⟩
      · simp only [drawRow, hb, ht]
        rfl
      · simp only [hcons]; exact hct
      · simp only [hcons]; exact hvt

/-- The pixels of a row that land outside the grid, in draw order. -/
def rowOffenders (row : Byte) (r x : Nat) (is : List Nat) : List Nat :=
  is.filter fun i => spriteBit row i && (decide (32 ≤ r) || decide (64 ≤ x + i))

/-- The first set bit that lands outside the grid names the fault. -/
theorem drawRow_faults (row : Byte) (r x : Nat) (is : List Nat) (s : State) (i : Nat)
    (h : (rowOffenders row r x is).head? = some i) : drawRow row r x is s = .error (.displayFault r (x + i)) := by
  induction is generalizing s with
  | nil => cases h
  | cons j is ih =>
    by_cases hb : spriteBit row j = true
    · by_cases hg : 32 ≤ r ∨ 64 ≤ x + j
      · have : rowOffenders row r x (j :: is) = j :: rowOffenders row r x is := by
          simp [rowOffenders, hb, hg]
        rw [this, List.head?_cons, Option.some.injEq] at h
        subst h
        simp only [drawRow, hb, if_true, toggleCell_offGrid s r (x + j) hg]
      · have : rowOffenders row r x (j :: is) = rowOffenders row r x is := by
          simp [rowOffenders, hb, hg]
        rw [this] at h
        obtain ⟨u, hu, -⟩ := toggleCell_inGrid s r (x + j) (by omega) (by omega)
        simp only [drawRow, hb, if_true, hu]
        exact ih u h
    · have : rowOffenders row r x (j :: is) = rowOffenders row r x is := by
        simp [rowOffenders, hb]
      rw [this] at h
      simp only [drawRow, hb]
      exact ih s h

/-! ### The sprite -/

/-- Some row of the list has a set bit that lands on row `r` and column `c`. -/
def RowsLand (s : State) (x y : Nat) (js : List Nat) (r c : Nat) : Prop :=
  ∃ j ∈ js, r = y + j ∧ RowLands (s.byteAt (s.effAddr j)) x (List.range 8) c

/-- The rows of the list are in memory and their set bits land inside the grid. -/
def RowsFit (s : State) (x y : Nat) (js : List Nat) : Prop :=
  ∀ j ∈ js, s.effAddr j < s.config.ramSize ∧
    ∀ i ∈ List.range 8, spriteBit (s.byteAt (s.effAddr j)) i = true → y + j < 32 ∧ x + i < 64

theorem OnlyDraws.effAddr {s t : State} (h : OnlyDraws s t) (j : Nat) : t.effAddr j = s.effAddr j := by
  rw [State.effAddr, h.i]; rfl

theorem OnlyDraws.rowsFit {s t : State} (h : OnlyDraws s t) (x y : Nat) (js : List Nat) :
    RowsFit t x y js ↔ RowsFit s x y js := by
  simp only [RowsFit, h.effAddr, h.byteAt, h.config]

theorem OnlyDraws.rowsLand {s t : State} (h : OnlyDraws s t) (x y : Nat) (js : List Nat) (r c : Nat) :
    RowsLand t x y js r c ↔ RowsLand s x y js r c := by
  simp only [RowsLand, h.effAddr, h.byteAt]

/-- A sprite that fits: each cell under a set bit is inverted, the others keep their value, and `VF` becomes 1 when one
of them was 1. -/
theorem drawRows_fits (x y : Nat) (js : List Nat) (s : State) (hn : js.Nodup) (h : RowsFit s x y js) :
    ∃ t, drawRows x y js s = .ok t ∧ OnlyDraws s t ∧
      (∀ r c, (RowsLand s x y js r c → t.cell r c = !s.cell r c) ∧
        (¬RowsLand s x y js r c → t.cell r c = s.cell r c)) ∧
      (((∃ r c, RowsLand s x y js r c ∧ s.cell r c = true) ∧ t.getV 15 = 1) ∨
        ((¬∃ r c, RowsLand s x y js r c ∧ s.cell r c = true) ∧ t.getV 15 = s.getV 15)) := by
  induction js generalizing s with
  | nil =>
    refine ⟨s, rfl, .rfl' s, fun r c => ⟨?_, fun _ => rfl⟩, .inr ⟨?_, rfl⟩⟩
    · rintro ⟨j, hj, -⟩; exact absurd hj List.not_mem_nil
    · rintro ⟨r, c, ⟨j, hj, -⟩, -⟩; exact absurd hj List.not_mem_nil
  | cons j js ih =>
    rw [List.nodup_cons] at hn
    obtain ⟨hmem, hgrid⟩ := h j List.mem_cons_self
    obtain ⟨u, hu, hou, hcu, hvu⟩ :=
      drawRow_fits (s.byteAt (s.effAddr j)) (y + j) x (List.range 8) s List.nodup_range hgrid
    obtain ⟨t, ht, hot, hct, hvt⟩ :=
      ih u hn.2 ((hou.rowsFit x y js).mpr fun k hk => h k (List.mem_cons_of_mem _ hk))
    simp only [hou.rowsLand] at hct hvt
    have hcons : ∀ r c, RowsLand s x y (j :: js) r c ↔
        (r = y + j ∧ RowLands (s.byteAt (s.effAddr j)) x (List.range 8) c) ∨ RowsLand s x y js r c := by
      intro r c
      simp only [RowsLand, List.mem_cons, or_and_right, exists_or, exists_eq_left]
    have hfresh : ∀ r c, RowsLand s x y js r c → r ≠ y + j := by
      rintro r c ⟨k, hk, rfl, -⟩ heq
      exact hn.1 ((show j = k by omega) ▸ hk)
    have hsame : ∀ r c, RowsLand s x y js r c → u.cell r c = s.cell r c := fun r c hl =>
      (hcu r c).2 fun hh => hfresh r c hl hh.1
    refine ⟨t, ?_, hou.trans' hot, fun r c => ⟨fun hl => ?_, fun hl => ?_⟩, ?_⟩
    · simp only [drawRows, memRead_inRange hmem, hu, ht]
    · by_cases hl' : RowsLand s x y js r c
      · rw [(hct r c).1 hl', hsame r c hl']
      · rw [(hct r c).2 hl', (hcu r c).1 (((hcons r c).mp hl).resolve_right hl')]
    · rw [hcons, not_or] at hl
      rw [(hct r c).2 hl.2, (hcu r c).2 hl.1]
    · rcases hvt with ⟨⟨r, c, hl, hsl⟩, hv⟩ | ⟨hno, hv⟩
      · exact .inl ⟨⟨r, c, (hcons r c).mpr (.inr hl), by rw [← hsame r c hl]; exact hsl⟩, hv⟩
      · rcases hvu with ⟨⟨c, hl, hsl⟩, hvu⟩ | ⟨hnou, hvu⟩
        · exact .inl ⟨⟨y + j, c, (hcons _ c).mpr (.inl ⟨rfl, hl⟩), hsl⟩, hv.trans hvu⟩
        · refine .inr ⟨?_, hv.trans hvu⟩
          rintro ⟨r, c, hl, hsl⟩
          rcases (hcons r c).mp hl with ⟨hr, hrow⟩ | hrest
          · subst hr
            exact hnou ⟨c, hrow, hsl⟩
          · exact hno ⟨r, c, hrest, by rw [hsame r c hrest]; exact hsl⟩

theorem OnlyDraws.rowFaults {s t : State} (h : OnlyDraws s t) (x y j : Nat) :
    rowFaults t x y j = rowFaults s x y j := by
  simp only [Sys2Proof.Machine.rowFaults, h.byteAt, h.config, h.i]

/-- No access of the draw order is out of range exactly when the rows fit. -/
theorem rowFaults_head_none (x y : Nat) (js : List Nat) (s : State) :
    (js.flatMap (rowFaults s x y)).head? = none ↔ RowsFit s x y js := by
  rw [List.head?_eq_none_iff, List.flatMap_eq_nil_iff]
  refine forall₂_congr fun j _ => ?_
  rw [rowFaults, List.append_eq_nil_iff, List.map_eq_nil_iff, List.filter_eq_nil_iff]
  refine and_congr ?_ (forall₂_congr fun i _ => ?_)
  · rw [State.effAddr]
    split <;> simp <;> omega
  · simp only [Bool.and_eq_true, Bool.or_eq_true, decide_eq_true_eq, not_and, not_or, Nat.not_le]
    rfl

/-- The first access of the draw order that is out of range names the fault. -/
theorem drawRows_faults (x y : Nat) (js : List Nat) (s : State) (c : FaultCause)
    (h : (js.flatMap (rowFaults s x y)).head? = some c) : drawRows x y js s = .error c := by
  induction js generalizing s with
  | nil => cases h
  | cons j js ih =>
    rw [List.flatMap_cons] at h
    by_cases hmem : s.effAddr j < s.config.ramSize
    · have hrow : rowFaults s x y j =
          (rowOffenders (s.byteAt (s.effAddr j)) (y + j) x (List.range 8)).map
            fun k => .displayFault (y + j) (x + k) := by
        rw [rowFaults, if_neg (by rw [State.effAddr] at hmem; omega), List.nil_append]
        rfl
      rw [hrow] at h
      simp only [drawRows, memRead_inRange hmem]
      cases hoff : rowOffenders (s.byteAt (s.effAddr j)) (y + j) x (List.range 8) with
      | nil =>
        rw [hoff, List.map_nil, List.nil_append] at h
        have hgrid : ∀ i ∈ List.range 8, spriteBit (s.byteAt (s.effAddr j)) i = true → y + j < 32 ∧ x + i < 64 := by
          intro i hi hb
          have := (List.filter_eq_nil_iff.mp hoff) i hi
          simp only [hb, Bool.true_and, Bool.or_eq_true, decide_eq_true_eq, not_or] at this
          omega
        obtain ⟨u, hu, hou, -⟩ :=
          drawRow_fits (s.byteAt (s.effAddr j)) (y + j) x (List.range 8) s List.nodup_range hgrid
        rw [hu]
        refine ih u ?_
        rw [← h]
        congr 2
        funext k
        exact hou.rowFaults x y k
      | cons i is =>
        rw [hoff, List.map_cons, List.cons_append, List.head?_cons, Option.some.injEq] at h
        rw [drawRow_faults _ _ _ _ s i (by rw [hoff]; rfl), ← h]
    · have hm : s.config.ramSize ≤ s.i.toNat + j := by rw [State.effAddr] at hmem; omega
      rw [rowFaults, if_pos hm, List.singleton_append, List.cons_append, List.head?_cons, Option.some.injEq] at h
      simp only [drawRows, memRead_outOfRange (Nat.le_of_not_lt hmem)]
      rw [← h, State.effAddr]

end Sys2Proof.Machine
end

