-- ==== Sys2Proof/Laws/Transfers.lean ====
section
/-!
SUPPORT. The multi-byte transfers in closed form: what storing bytes, loading registers and copying a program leave, and
where they fault (spec/44_index_memory.md R143 to R146, 40_step_cycle.md R96).
-/

namespace Sys2Proof.Machine

/-! ### Copying bytes without a check -/

theorem copyBytes_onlyMemory (a : Nat) (bs : List Byte) (s : State) :
    ∃ m, copyBytes a bs s = { s with memory := m } := by
  induction bs generalizing a s with
  | nil => exact ⟨s.memory, rfl⟩
  | cons b bs ih =>
    obtain ⟨m, h⟩ := ih (a + 1) (s.setByte a b)
    exact ⟨m, by rw [copyBytes, h]; rfl⟩

theorem copyBytes_config (a : Nat) (bs : List Byte) (s : State) : (copyBytes a bs s).config = s.config := by
  obtain ⟨m, h⟩ := copyBytes_onlyMemory a bs s
  rw [h]

theorem copyBytes_byteAt (a : Nat) (bs : List Byte) (s : State) (k : Nat) :
    (copyBytes a bs s).byteAt k = if a ≤ k then bs.getD (k - a) (s.byteAt k) else s.byteAt k := by
  induction bs generalizing a s with
  | nil => simp [copyBytes]
  | cons b bs ih =>
    rw [copyBytes, ih, State.setByte_byteAt]
    rcases lt_trichotomy k a with h | h | h
    · rw [if_neg (by omega), if_neg (by omega), if_neg (by omega)]
    · subst h
      simp
    · rw [if_pos (by omega), if_neg (by omega), if_pos (by omega)]
      obtain ⟨n, rfl⟩ : ∃ n, k = a + 1 + n := ⟨k - a - 1, by omega⟩
      rw [show a + 1 + n - (a + 1) = n by omega, show a + 1 + n - a = n + 1 by omega]
      simp

theorem copyBytes_wf (a : Nat) (bs : List Byte) (s : State) (ha : a + bs.length ≤ s.config.ramSize)
    (h : Memory.wf s.config s.memory = true) :
    Memory.wf (copyBytes a bs s).config (copyBytes a bs s).memory = true := by
  induction bs generalizing a s with
  | nil => exact h
  | cons b bs ih =>
    rw [List.length_cons] at ha
    exact ih (a + 1) (s.setByte a b) (by simp only [State.setByte_config]; omega)
      (State.setByte_wf s a b (by omega) h)

/-! ### Storing -/

/-- Stores that are all in range are a copy. -/
theorem storeBytes_inRange (a : Nat) (bs : List Byte) (s : State) (h : a + bs.length ≤ s.config.ramSize) :
    storeBytes a bs s = .ok (copyBytes a bs s) := by
  induction bs generalizing a s with
  | nil => rfl
  | cons b bs ih =>
    rw [List.length_cons] at h
    simp only [storeBytes, memWrite_inRange (show a < s.config.ramSize by omega)]
    exact ih (a + 1) (s.setByte a b) (by simp only [State.setByte_config]; omega)

/-- Stores of which one is out of range fault at the lowest such address. -/
theorem storeBytes_outOfRange (a : Nat) (bs : List Byte) (s : State) (hb : bs ≠ [])
    (h : s.config.ramSize < a + bs.length) :
    storeBytes a bs s = .error (.memoryFault .write (max a s.config.ramSize)) := by
  induction bs generalizing a s with
  | nil => exact absurd rfl hb
  | cons b bs ih =>
    rw [List.length_cons] at h
    by_cases ha : a < s.config.ramSize
    · simp only [storeBytes, memWrite_inRange ha]
      have hne : bs ≠ [] := by rintro rfl; simp only [List.length_nil] at h; omega
      rw [ih (a + 1) (s.setByte a b) hne (by simp only [State.setByte_config]; omega), State.setByte_config,
        show max (a + 1) s.config.ramSize = max a s.config.ramSize by omega]
    · simp only [storeBytes, memWrite_outOfRange (show s.config.ramSize ≤ a by omega)]
      rw [max_eq_left (by omega)]

/-! ### Loading -/

theorem loadRegs_inRange (a : Nat) (ks : List Reg) (s : State) (hn : ks.Nodup)
    (h : a + ks.length ≤ s.config.ramSize) :
    ∃ v, loadRegs a ks s = .ok { s with v := v } ∧
      (∀ n (hk : n < ks.length), ({ s with v := v } : State).getV ks[n] = s.byteAt (a + n)) ∧
      ∀ k, k ∉ ks → ({ s with v := v } : State).getV k = s.getV k := by
  induction ks generalizing a s with
  | nil => exact ⟨s.v, rfl, fun n hn => absurd hn (Nat.not_lt_zero n), fun _ _ => rfl⟩
  | cons k ks ih =>
    rw [List.length_cons] at h
    rw [List.nodup_cons] at hn
    simp only [loadRegs, memRead_inRange (show a < s.config.ramSize by omega)]
    obtain ⟨v, hv, hin, hout⟩ := ih (a + 1) (s.setV k (s.byteAt a)) hn.2 (by simp only [State.setV_config]; omega)
    refine ⟨v, hv, fun n hk => ?_, fun q hq => ?_⟩
    · cases n with
      | zero => exact (hout k hn.1).trans (State.setV_getV_self s k _)
      | succ n =>
        have := hin n (by simpa using hk)
        rw [show a + (n + 1) = a + 1 + n by omega]
        exact this
    · rw [List.mem_cons, not_or] at hq
      exact (hout q hq.2).trans (State.setV_getV_ne s hq.1 _)

theorem loadRegs_outOfRange (a : Nat) (ks : List Reg) (s : State) (hb : ks ≠ [])
    (h : s.config.ramSize < a + ks.length) :
    loadRegs a ks s = .error (.memoryFault .read (max a s.config.ramSize)) := by
  induction ks generalizing a s with
  | nil => exact absurd rfl hb
  | cons k ks ih =>
    rw [List.length_cons] at h
    by_cases ha : a < s.config.ramSize
    · simp only [loadRegs, memRead_inRange ha]
      have hne : ks ≠ [] := by rintro rfl; simp only [List.length_nil] at h; omega
      rw [ih (a + 1) (s.setV k (s.byteAt a)) hne (by simp only [State.setV_config]; omega), State.setV_config,
        show max (a + 1) s.config.ramSize = max a s.config.ramSize by omega]
    · simp only [loadRegs, memRead_outOfRange (show s.config.ramSize ≤ a by omega)]
      rw [max_eq_left (by omega)]

theorem regsUpTo_nodup (x : Reg) : (regsUpTo x).Nodup := (List.nodup_finRange 16).filter _

theorem regsUpTo_ne_nil (x : Reg) : regsUpTo x ≠ [] := by
  intro h
  have := regsUpTo_length x
  rw [h] at this
  simp at this

/-! ### The key scan -/

/-- The scan answers the last pressed key of the list, or what was found before it. -/
theorem scanKeys_append (s : State) (ks : List Reg) (k : Reg) (found : Option Reg) :
    scanKeys s (ks ++ [k]) found = if s.keyAt k then some k else scanKeys s ks found := by
  induction ks generalizing found with
  | nil => rfl
  | cons q ks ih => exact ih _

theorem scanKeys_none (s : State) (ks : List Reg) (found : Option Reg) (h : ∀ k ∈ ks, s.keyAt k = false) :
    scanKeys s ks found = found := by
  induction ks generalizing found with
  | nil => rfl
  | cons k ks ih =>
    rw [scanKeys, h k List.mem_cons_self]
    exact ih found fun q hq => h q (List.mem_cons_of_mem _ hq)

theorem scanKeys_last (s : State) (pre post : List Reg) (k : Reg) (found : Option Reg) (hk : s.keyAt k = true)
    (h : ∀ q ∈ post, s.keyAt q = false) : scanKeys s (pre ++ k :: post) found = some k := by
  induction pre generalizing found with
  | nil =>
    rw [List.nil_append, scanKeys, hk]
    exact scanKeys_none s post (some k) h
  | cons q pre ih => exact ih _

/-- With no key pressed the scan finds none. -/
theorem pressedKey_none (s : State) (h : ∀ k, s.keyAt k = false) : pressedKey s = none :=
  scanKeys_none s keyIndices none fun k _ => h k

/-- The scan finds the highest pressed key. -/
theorem pressedKey_highest (s : State) (k : Reg) (hk : s.keyAt k = true) (h : ∀ l, s.keyAt l = true → l ≤ k) :
    pressedKey s = some k := by
  have hsplit : keyIndices = (keyIndices.take k.val) ++ k :: (keyIndices.drop (k.val + 1)) := by
    have hl : k.val < keyIndices.length := by simp [keyIndices]
    have hg : keyIndices[k.val] = k := by simp [keyIndices]
    conv_lhs => rw [← List.take_append_drop k.val keyIndices, List.drop_eq_getElem_cons hl, hg]
  rw [pressedKey, hsplit]
  refine scanKeys_last s _ _ k none hk fun q hq => ?_
  obtain ⟨n, hn, rfl⟩ := List.getElem_of_mem hq
  by_contra hp
  have hle := h _ (by simpa using hp)
  simp only [keyIndices, List.getElem_finRange, Fin.le_def, Fin.val_cast] at hle
  omega

end Sys2Proof.Machine
end

