-- ==== Sys2Proof/Laws/Exec.lean ====
section
/-!
SUPPORT. What an execute phase can answer, once for all instructions, and what a step does around it
(spec/40_step_cycle.md R86).
-/

namespace Sys2Proof.Machine

variable {s t : State}

/-! ### The parts of a frame -/

/-- Every part that is the same by its field's own equation. -/
theorem OnlyChanges.mono {ps qs : List Part} (h : OnlyChanges ps s t) (hsub : ∀ p ∈ ps, p ∈ qs) :
    OnlyChanges qs s t := fun p hp => h p fun hp' => hp (hsub p hp')

theorem OnlyChanges.trans' {ps qs : List Part} {u : State} (h : OnlyChanges ps s t) (k : OnlyChanges qs t u) :
    OnlyChanges (ps ++ qs) s u := by
  intro p hp
  rw [List.mem_append, not_or] at hp
  have h1 := h p hp.1
  have h2 := k p hp.2
  cases p <;> first | exact h2.trans h1 | exact fun r => (h2 r).trans (h1 r) | exact fun r c => (h2 r c).trans (h1 r c)

/-! ### Every instruction answers a next state -/

/-- An execute phase answers a next state whose latch is as it was, or one that entered a fault. -/
theorem exec_cases (i : Instr) (s : State) :
    (∃ c, exec i s = .next (raiseFault s c (some (encode i)))) ∨ ∃ t, exec i s = .next t ∧ t.fault = s.fault := by
  have done : ∀ (i : Instr) (t : State), t.fault = s.fault →
      (∃ c, complete i s (.ok t) = .next (raiseFault s c (some (encode i)))) ∨
        ∃ u, complete i s (.ok t) = .next u ∧ u.fault = s.fault := fun i t h => .inr ⟨t, rfl, h⟩
  have failed : ∀ (i : Instr) (c : FaultCause),
      (∃ c', complete i s (.error c) = .next (raiseFault s c' (some (encode i)))) ∨
        ∃ u, complete i s (.error c) = .next u ∧ u.fault = s.fault := fun i c => .inl ⟨c, rfl⟩
  cases i with
  | ret =>
    simp only [exec, execRet]
    by_cases h : s.sp = 0
    · rw [pop_empty h]; exact failed _ _
    · rw [pop_held (by omega)]; exact done _ _ rfl
  | call nnn =>
    simp only [exec, execCall]
    by_cases h : s.sp < s.config.stackDepth
    · rw [push_free h]; exact done _ _ rfl
    · rw [push_full (by omega)]; exact failed _ _
  | skp x =>
    simp only [exec, execSkp, keyRead]
    split <;> rename_i heq
    · exact done _ _ rfl
    · exact failed _ _
  | sknp x =>
    simp only [exec, execSknp, keyRead]
    split <;> rename_i heq
    · exact done _ _ rfl
    · exact failed _ _
  | ldVxK x =>
    simp only [exec, execLdVxK]
    split <;> exact done _ _ rfl
  | ldB x =>
    simp only [exec, execLdB]
    by_cases h : s.effAddr 0 + 3 ≤ s.config.ramSize
    · rw [storeBytes_inRange _ _ _ h]
      obtain ⟨m, hm⟩ := copyBytes_onlyMemory (s.effAddr 0) [hundreds (s.getV x), tens (s.getV x), ones (s.getV x)] s
      rw [hm]; exact done _ _ rfl
    · rw [storeBytes_outOfRange _ _ _ (List.cons_ne_nil _ _) (by simpa using h)]; exact failed _ _
  | stRegs x =>
    simp only [exec, execStRegs]
    by_cases h : s.effAddr 0 + ((regsUpTo x).map s.getV).length ≤ s.config.ramSize
    · rw [storeBytes_inRange _ _ _ h]
      obtain ⟨m, hm⟩ := copyBytes_onlyMemory (s.effAddr 0) ((regsUpTo x).map s.getV) s
      rw [hm]; exact done _ _ rfl
    · rw [storeBytes_outOfRange _ _ _ (by simp [regsUpTo_ne_nil]) (by omega)]; exact failed _ _
  | ldRegs x =>
    simp only [exec, execLdRegs]
    by_cases h : s.effAddr 0 + (regsUpTo x).length ≤ s.config.ramSize
    · obtain ⟨v, hv, -⟩ := loadRegs_inRange _ _ s (regsUpTo_nodup x) h
      rw [hv]; exact done _ _ rfl
    · rw [loadRegs_outOfRange _ _ _ (regsUpTo_ne_nil x) (by omega)]; exact failed _ _
  | drw x y n =>
    simp only [exec, execDrw]
    cases hd : ((List.range n).flatMap
        (rowFaults (s.setFlag 0) (s.getV x).toNat (s.getV y).toNat)).head? with
    | some c => rw [drawRows_faults _ _ _ _ c hd]; exact failed _ _
    | none =>
      have hfit := (rowFaults_head_none _ _ _ _).mp hd
      obtain ⟨t, ht, hot, -⟩ := drawRows_fits _ _ _ _ List.nodup_range hfit
      rw [ht]; exact done _ _ (by rw [hot.parts]; rfl)
  | _ => exact done _ _ rfl

/-! ### The step around an instruction -/

theorem step_latched {r : FaultRecord} (h : s.fault = some r) : step s = .next s := by
  simp only [step, cycle, h]

theorem step_fetchFault {c : FaultCause} (h : s.fault = none) (hf : fetch s = .error c) :
    step s = .next (raiseFault s c none) := by
  simp only [step, cycle, h, hf]

theorem step_unknown {w : Word} {e : DecodeReject} (h : s.fault = none) (hf : fetch s = .ok w)
    (hd : decode w = .error e) : step s = .next (tick s) := by
  simp only [step, cycle, h, hf, hd, unknownStep]

theorem step_instr {w : Word} {i : Instr} (h : s.fault = none) (hf : fetch s = .ok w) (hd : decode w = .ok i)
    (he : exec i s = .next t) : step s = .next (finishStep t) := by
  simp only [step, cycle, h, hf, hd, runInstr, he]

/-- What a step from a state without a latched fault can be: a fetch fault, an unknown word and the tick, an instruction
that entered a fault, or an instruction and the tick. -/
theorem step_cases (h : s.fault = none) (hs : step s = .next t) :
    (∃ c, fetch s = .error c ∧ t = raiseFault s c none) ∨
    (∃ w e, fetch s = .ok w ∧ decode w = .error e ∧ t = tick s) ∨
    (∃ w i c, fetch s = .ok w ∧ decode w = .ok i ∧ exec i s = .next (raiseFault s c (some (encode i))) ∧
      t = raiseFault s c (some (encode i))) ∨
    (∃ w i u, fetch s = .ok w ∧ decode w = .ok i ∧ exec i s = .next u ∧ u.fault = none ∧ t = tick u) := by
  cases hf : fetch s with
  | error c =>
    rw [step_fetchFault h hf, Host.Outcome.next.injEq] at hs
    exact .inl ⟨c, rfl, hs.symm⟩
  | ok w =>
    cases hd : decode w with
    | error e =>
      rw [step_unknown h hf hd, Host.Outcome.next.injEq] at hs
      exact .inr (.inl ⟨w, e, rfl, hd, hs.symm⟩)
    | ok i =>
      rcases exec_cases i s with ⟨c, he⟩ | ⟨u, he, hu⟩
      · rw [step_instr h hf hd he, Host.Outcome.next.injEq, finishStep_latched rfl] at hs
        exact .inr (.inr (.inl ⟨w, i, c, rfl, hd, he, hs.symm⟩))
      · rw [h] at hu
        rw [step_instr h hf hd he, Host.Outcome.next.injEq, finishStep_clear hu] at hs
        exact .inr (.inr (.inr ⟨w, i, u, rfl, hd, he, hu, hs.symm⟩))

/-- The instruction the next step runs, from its parts. -/
theorem currentInstr_eq_some_iff (i : Instr) :
    currentInstr s = some i ↔ s.fault = none ∧ ∃ w, fetch s = .ok w ∧ decode w = .ok i := by
  unfold currentInstr
  constructor
  · intro h
    split at h
    · cases h
    · rename_i hn
      split at h
      · cases h
      · rename_i w hf
        split at h
        · cases h
        · rename_i j hd
          cases h
          exact ⟨hn, w, hf, hd⟩
  · rintro ⟨hn, w, hf, hd⟩
    simp only [hn, hf, hd]

theorem halted_eq_true_iff : s.halted = true ↔ ∃ r, s.fault = some r := Option.isSome_iff_exists

/-- The self-jump's address names both the instruction at `PC` and `PC` itself. -/
theorem spinsAt_eq_true_iff (a : Addr) :
    s.spinsAt a = true ↔ currentInstr s = some (.jp a) ∧ s.pc = zextAddr a := by
  simp [State.spinsAt]

/-- A run has ended in a latched fault or in the self-jump, never in both. -/
theorem runEnded_eq_true_iff (a : Addr) :
    s.runEnded a = true ↔ (∃ r, s.fault = some r) ∨ (s.fault = none ∧ s.spinsAt a = true) := by
  rw [State.runEnded, Bool.or_eq_true, halted_eq_true_iff]
  refine or_congr_right ⟨fun h => ⟨?_, h⟩, And.right⟩
  exact ((currentInstr_eq_some_iff _).mp ((spinsAt_eq_true_iff a).mp h).1).1

/-- The tick touches nothing that a fetch reads, so it leaves the next instruction as it was. -/
@[simp] theorem tick_currentInstr : currentInstr (tick s) = currentInstr s := rfl

@[simp] theorem tick_spinsAt (a : Addr) : (tick s).spinsAt a = s.spinsAt a := rfl

/-- A placed word is the word the next step fetches. -/
theorem fetch_placeWord (s : State) (w : Word) (h : s.pc.toNat + 1 < s.config.ramSize) :
    fetch (placeWord s w) = .ok w := by
  have hp : placeWord s w = { (s.setByte s.pc.toNat (highByte w)).setByte (s.pc.toNat + 1) (lowByte w) with fault := none } :=
    if_neg (by omega)
  have hb : ∀ k, (placeWord s w).byteAt k =
      ((s.setByte s.pc.toNat (highByte w)).setByte (s.pc.toNat + 1) (lowByte w)).byteAt k := fun k => by rw [hp]; rfl
  have hpc : (placeWord s w).pc = s.pc := by rw [hp]; rfl
  have hc : (placeWord s w).config = s.config := by rw [hp]; rfl
  rw [fetch_inRange (by rw [hpc, hc]; exact h), hb, hb, hpc]
  simp only [State.setByte_byteAt, if_true, if_neg (show ¬(s.pc.toNat = s.pc.toNat + 1) by omega), wordOfBytes_bytes]

end Sys2Proof.Machine
end

