-- ==== Sys2Proof/Laws/PerInstr.lean ====
section
/-!
SUPPORT. A statement for every instruction as syntax: its word selects its own row of the opcode map
(spec/30_encoding.md R66).
-/

namespace Sys2Proof.Laws.EncodedRow

/-- The word that the encoder writes for the instruction selects the instruction's row. -/
def Statement (i : Instr) : Prop := ((opcodeMap[rowIndex i]?).any fun r => rowMatches r (encode i)) = true

/-- The opcode field decides a row whose mask is the opcode field. -/
theorem mask_op (w : Word) (op : Nibble) (h : fieldOp w = op) : w &&& 0xF000#16 = op ++ 0#12 := by
  subst h
  have hw := formAddr_fields w
  rw [formAddr] at hw
  generalize fieldOp w = a at *
  generalize fieldNNN w = b at *
  subst hw
  rw [show (0xF000#16 : Word) = 0xF#4 ++ 0#12 from rfl, BitVec.and_append]
  rw [BitVec.and_zero, show a &&& 0xF#4 = a from BitVec.and_allOnes]

/-- The opcode field and the low byte decide a row whose mask is those two. -/
theorem mask_op_nn (op : Nibble) (x : Reg) (nn : Byte) : formRegImm op x nn &&& 0xF0FF#16 = op ++ 0#4 ++ nn := by
  rw [formRegImm, show (0xF0FF#16 : Word) = 0xF#4 ++ 0x0#4 ++ 0xFF#8 from rfl, BitVec.and_append, BitVec.and_append,
    BitVec.and_zero, show op &&& 0xF#4 = op from BitVec.and_allOnes, show nn &&& 0xFF#8 = nn from BitVec.and_allOnes]

/-- The opcode field and the low nibble decide a row whose mask is those two. -/
theorem mask_op_n (op : Nibble) (x y : Reg) (n : Nibble) :
    formRegReg op x y n &&& 0xF00F#16 = op ++ 0#4 ++ 0#4 ++ n := by
  rw [formRegReg, show (0xF00F#16 : Word) = 0xF#4 ++ 0x0#4 ++ 0x0#4 ++ 0xF#4 from rfl, BitVec.and_append,
    BitVec.and_append, BitVec.and_append, BitVec.and_zero, BitVec.and_zero,
    show op &&& 0xF#4 = op from BitVec.and_allOnes, show n &&& 0xF#4 = n from BitVec.and_allOnes]

/-- The statement, from the row and the masked word. -/
theorem of_row (i : Instr) (r : OpcodeRow) (hr : opcodeMap[rowIndex i]? = some r)
    (hw : encode i &&& r.mask = r.pattern) : Statement i := by
  simp [Statement, hr, rowMatches, hw]

theorem cls : Statement .cls := of_row _ _ rfl rfl

theorem ret : Statement .ret := of_row _ _ rfl rfl

theorem jp (nnn : Addr) : Statement (.jp nnn) := of_row _ _ rfl (mask_op _ _ (formAddr_fieldOp _ _))

theorem call (nnn : Addr) : Statement (.call nnn) := of_row _ _ rfl (mask_op _ _ (formAddr_fieldOp _ _))

theorem seImm (x : Reg) (nn : Byte) : Statement (.seImm x nn) := of_row _ _ rfl (mask_op _ _ (formRegImm_fieldOp _ _ _))

theorem sneImm (x : Reg) (nn : Byte) : Statement (.sneImm x nn) := of_row _ _ rfl (mask_op _ _ (formRegImm_fieldOp _ _ _))

theorem seReg (x y : Reg) : Statement (.seReg x y) := of_row _ _ rfl (mask_op_n _ _ _ _)

theorem ldImm (x : Reg) (nn : Byte) : Statement (.ldImm x nn) := of_row _ _ rfl (mask_op _ _ (formRegImm_fieldOp _ _ _))

theorem addImm (x : Reg) (nn : Byte) : Statement (.addImm x nn) := of_row _ _ rfl (mask_op _ _ (formRegImm_fieldOp _ _ _))

theorem ldReg (x y : Reg) : Statement (.ldReg x y) := of_row _ _ rfl (mask_op_n _ _ _ _)

theorem orReg (x y : Reg) : Statement (.orReg x y) := of_row _ _ rfl (mask_op_n _ _ _ _)

theorem andReg (x y : Reg) : Statement (.andReg x y) := of_row _ _ rfl (mask_op_n _ _ _ _)

theorem xorReg (x y : Reg) : Statement (.xorReg x y) := of_row _ _ rfl (mask_op_n _ _ _ _)

theorem addReg (x y : Reg) : Statement (.addReg x y) := of_row _ _ rfl (mask_op_n _ _ _ _)

theorem sub (x y : Reg) : Statement (.sub x y) := of_row _ _ rfl (mask_op_n _ _ _ _)

theorem shr (x y : Reg) : Statement (.shr x y) := of_row _ _ rfl (mask_op_n _ _ _ _)

theorem subn (x y : Reg) : Statement (.subn x y) := of_row _ _ rfl (mask_op_n _ _ _ _)

theorem shl (x y : Reg) : Statement (.shl x y) := of_row _ _ rfl (mask_op_n _ _ _ _)

theorem sneReg (x y : Reg) : Statement (.sneReg x y) := of_row _ _ rfl (mask_op_n _ _ _ _)

theorem ldI (nnn : Addr) : Statement (.ldI nnn) := of_row _ _ rfl (mask_op _ _ (formAddr_fieldOp _ _))

theorem jpV0 (nnn : Addr) : Statement (.jpV0 nnn) := of_row _ _ rfl (mask_op _ _ (formAddr_fieldOp _ _))

theorem rnd (x : Reg) (nn : Byte) : Statement (.rnd x nn) := of_row _ _ rfl (mask_op _ _ (formRegImm_fieldOp _ _ _))

theorem drw (x y : Reg) (n : Nat) : Statement (.drw x y n) := of_row _ _ rfl (mask_op _ _ (formRegReg_fieldOp _ _ _ _))

theorem skp (x : Reg) : Statement (.skp x) := of_row _ _ rfl (mask_op_nn _ _ _)

theorem sknp (x : Reg) : Statement (.sknp x) := of_row _ _ rfl (mask_op_nn _ _ _)

theorem ldVxDt (x : Reg) : Statement (.ldVxDt x) := of_row _ _ rfl (mask_op_nn _ _ _)

theorem ldVxK (x : Reg) : Statement (.ldVxK x) := of_row _ _ rfl (mask_op_nn _ _ _)

theorem ldDtVx (x : Reg) : Statement (.ldDtVx x) := of_row _ _ rfl (mask_op_nn _ _ _)

theorem ldStVx (x : Reg) : Statement (.ldStVx x) := of_row _ _ rfl (mask_op_nn _ _ _)

theorem addI (x : Reg) : Statement (.addI x) := of_row _ _ rfl (mask_op_nn _ _ _)

theorem ldF (x : Reg) : Statement (.ldF x) := of_row _ _ rfl (mask_op_nn _ _ _)

theorem ldB (x : Reg) : Statement (.ldB x) := of_row _ _ rfl (mask_op_nn _ _ _)

theorem stRegs (x : Reg) : Statement (.stRegs x) := of_row _ _ rfl (mask_op_nn _ _ _)

theorem ldRegs (x : Reg) : Statement (.ldRegs x) := of_row _ _ rfl (mask_op_nn _ _ _)

end Sys2Proof.Laws.EncodedRow
end

