-- ==== Sys2Proof/Tests/Slice0.lean ====
section
/-!
SUPPORT. Tests of the chipper CORE. The expected values are those of spec/95_test_vectors.md (the section is named at
each group), computed there by hand from the rules; the words are written out from 30_encoding.md. The second half shows,
for each statement with hypotheses, a state and operands that meet them, each clause at a boundary.
-/

namespace Sys2Proof.Tests

open Sys2Proof.Machine

/-! ### Helpers -/

/-- A state with some registers set. -/
def withRegs (rs : List (Reg × Byte)) (s : State) : State := rs.foldl (fun s r => s.setV r.1 r.2) s

/-- A state with bytes at an address. -/
def withBytes (a : Nat) (bs : List Byte) (s : State) : State := copyBytes a bs s

/-- The state after one step that runs the word `w` at `PC`. -/
def after (w : Nat) (s : State) : State :=
  match step (s.withFetchWord 16 w) with
  | .next t => t
  | _ => s

/-- The outputs of one step that runs the word `w` at `PC`. -/
def outputs (w : Nat) (s : State) : StepOutput := stepOutput (s.withFetchWord 16 w)

/-- The state after reset with some registers set and `VF = 0x55`. -/
def alu (rs : List (Reg × Byte)) : State := withRegs ((15, 0x55) :: rs) State.reset

/-- The state after reset with `PC = 0x300` and some registers set. -/
def at300 (rs : List (Reg × Byte)) : State := withRegs rs (State.reset.setPc 0x300)

/-! ### Well-formedness: each check refuses an ill-formed term and accepts the boundary -/

theorem test_wellFormed_drw_sixteen_rows : (Instr.drw 0 0 16).wellFormed = false := by decide

theorem test_wellFormed_drw_fifteen_rows : (Instr.drw 15 15 15).wellFormed = true := by decide

theorem test_wellFormed_ram_too_small : ({ Config.customary with ramSize := 511 } : Config).wellFormed = false := by
  decide

theorem test_wellFormed_ram_too_large : ({ Config.customary with ramSize := 65537 } : Config).wellFormed = false := by
  decide

theorem test_wellFormed_ram_bounds :
    ({ Config.customary with ramSize := 512 } : Config).wellFormed = true ∧
      ({ Config.customary with ramSize := 65536 } : Config).wellFormed = true := by decide

/-! ### Decoding: every constructor's word, written out from 30_encoding.md R62 and R66 (95_test_vectors.md 2.1)

That a decoded shift holds its ignored `Y` is the model's choice (log entry 22). -/

theorem test_decode_cls : decode 0b0000000011100000#16 = .ok .cls := by decide
theorem test_decode_ret : decode 0b0000000011101110#16 = .ok .ret := by decide
theorem test_decode_jp : decode 0b0001001000110100#16 = .ok (.jp 0x234) := by decide
theorem test_decode_call : decode 0b0010111111111111#16 = .ok (.call 0xFFF) := by decide
theorem test_decode_seImm : decode 0b0011111100000001#16 = .ok (.seImm 15 0x01) := by decide
theorem test_decode_sneImm : decode 0b0100101000010000#16 = .ok (.sneImm 10 0x10) := by decide
theorem test_decode_seReg : decode 0b0101101010110000#16 = .ok (.seReg 10 11) := by decide
theorem test_decode_ldImm : decode 0b0110101000101011#16 = .ok (.ldImm 10 0x2B) := by decide
theorem test_decode_addImm : decode 0b0111000011111111#16 = .ok (.addImm 0 0xFF) := by decide
theorem test_decode_ldReg : decode 0b1000101010110000#16 = .ok (.ldReg 10 11) := by decide
theorem test_decode_orReg : decode 0b1000000100100001#16 = .ok (.orReg 1 2) := by decide
theorem test_decode_andReg : decode 0b1000000100100010#16 = .ok (.andReg 1 2) := by decide
theorem test_decode_xorReg : decode 0b1000000100100011#16 = .ok (.xorReg 1 2) := by decide
theorem test_decode_addReg : decode 0b1000000100100100#16 = .ok (.addReg 1 2) := by decide
theorem test_decode_sub : decode 0b1000000100100101#16 = .ok (.sub 1 2) := by decide
theorem test_decode_shr : decode 0b1000101010110110#16 = .ok (.shr 10 11) := by decide
theorem test_decode_subn : decode 0b1000000100100111#16 = .ok (.subn 1 2) := by decide
theorem test_decode_shl : decode 0b1000101000001110#16 = .ok (.shl 10 0) := by decide
theorem test_decode_sneReg : decode 0b1001101010110000#16 = .ok (.sneReg 10 11) := by decide
theorem test_decode_ldI : decode 0b1010001011110000#16 = .ok (.ldI 0x2F0) := by decide
theorem test_decode_jpV0 : decode 0b1011111111111111#16 = .ok (.jpV0 0xFFF) := by decide
theorem test_decode_rnd : decode 0b1100001100001111#16 = .ok (.rnd 3 0x0F) := by decide
theorem test_decode_drw : decode 0b1101101010111111#16 = .ok (.drw 10 11 15) := by decide
theorem test_decode_skp : decode 0b1110000010011110#16 = .ok (.skp 0) := by decide
theorem test_decode_sknp : decode 0b1110111110100001#16 = .ok (.sknp 15) := by decide
theorem test_decode_ldVxDt : decode 0b1111000000000111#16 = .ok (.ldVxDt 0) := by decide
theorem test_decode_ldVxK : decode 0b1111010100001010#16 = .ok (.ldVxK 5) := by decide
theorem test_decode_ldDtVx : decode 0b1111000000010101#16 = .ok (.ldDtVx 0) := by decide
theorem test_decode_ldStVx : decode 0b1111000000011000#16 = .ok (.ldStVx 0) := by decide
theorem test_decode_addI : decode 0b1111001000011110#16 = .ok (.addI 2) := by decide
theorem test_decode_ldF : decode 0b1111000000101001#16 = .ok (.ldF 0) := by decide
theorem test_decode_ldB : decode 0b1111000100110011#16 = .ok (.ldB 1) := by decide
theorem test_decode_stRegs : decode 0b1111001001010101#16 = .ok (.stRegs 2) := by decide
theorem test_decode_ldRegs : decode 0b1111111101100101#16 = .ok (.ldRegs 15) := by decide

/-- The unknown words of 95_test_vectors.md 2.1. -/
theorem test_decode_unknown_families_0_5_9 :
    decode 0x0000 = .error (.unknownOpcode 0x0000) ∧ decode 0x00E1 = .error (.unknownOpcode 0x00E1) ∧
    decode 0x01E0 = .error (.unknownOpcode 0x01E0) ∧ decode 0x00FF = .error (.unknownOpcode 0x00FF) ∧
    decode 0x0234 = .error (.unknownOpcode 0x0234) ∧ decode 0x5AB1 = .error (.unknownOpcode 0x5AB1) ∧
    decode 0x9ABF = .error (.unknownOpcode 0x9ABF) := by decide

theorem test_decode_unknown_families_8_E_F :
    decode 0x8AB8 = .error (.unknownOpcode 0x8AB8) ∧ decode 0x8ABF = .error (.unknownOpcode 0x8ABF) ∧
    decode 0xE19F = .error (.unknownOpcode 0xE19F) ∧ decode 0xE0A0 = .error (.unknownOpcode 0xE0A0) ∧
    decode 0xF000 = .error (.unknownOpcode 0xF000) ∧ decode 0xF075 = .error (.unknownOpcode 0xF075) ∧
    decode 0xF01F = .error (.unknownOpcode 0xF01F) ∧ decode 0xFFFF = .error (.unknownOpcode 0xFFFF) := by decide

/-- Bytes too few for an instruction, and the bytes that stay after one. -/
theorem test_decodeBytes :
    decodeBytes [0x12] = .error .truncated ∧ decodeBytes [0x12, 0x34, 0x56] = .ok (.jp 0x234, [0x56]) := by decide

/-- No two rows of the opcode map overlap (30_encoding.md R66). -/
theorem test_opcodeMap_pairwise_disjoint :
    (opcodeMap.Pairwise fun r q => r.pattern &&& (r.mask &&& q.mask) ≠ q.pattern &&& (r.mask &&& q.mask)) := by decide

/-- The high byte comes first in memory (95_test_vectors.md 2.1): the bytes 12 34 are `JP 0x234`. -/
theorem test_fetch_big_endian : fetch (withBytes 0x200 [0x12, 0x34] State.reset) = .ok 0x1234#16 := by decide

/-! ### Control transfer (95_test_vectors.md 2.2) -/

theorem test_jp : (after 0x1234 State.reset).pc = 0x0234 := by decide

theorem test_jp_then_fetch_fault :
    (match step (after 0x1FFF State.reset) with | .next t => t.fault | _ => none) =
      some { cause := .memoryFault .fetch 0x1000, pc := 0x0FFF, word := none } := by decide

theorem test_call :
    let t := after 0x2210 (State.reset.setPc 0x204)
    t.stack[0]? = some 0x0204 ∧ t.sp = 1 ∧ t.pc = 0x0210 := by decide

theorem test_call_overflow :
    (after 0x2300 { State.reset with sp := 16 }).fault =
      some { cause := .stackOverflow 0x0200, pc := 0x0200, word := some 0x2300 } := by decide

theorem test_ret :
    let t := after 0x00EE { State.reset with pc := 0x212, sp := 1, stack := 0x0204 :: List.replicate 15 0 }
    t.sp = 0 ∧ t.pc = 0x0206 ∧ t.stack[0]? = some 0x0204 := by decide

theorem test_ret_underflow :
    (after 0x00EE State.reset).fault =
      some { cause := .stackUnderflow, pc := 0x0200, word := some 0x00EE } := by decide

theorem test_jpV0 : (after 0xB300 (alu [(0, 0x04)])).pc = 0x0304 := by decide

theorem test_jpV0_beyond_twelve_bits : (after 0xBFFF (alu [(0, 0xFF)])).pc = 0x10FE := by decide

/-! ### Skips, all at `PC = 0x300` (95_test_vectors.md 2.3) -/

theorem test_seImm : (after 0x3A10 (at300 [(10, 0x10)])).pc = 0x304 ∧ (after 0x3A10 (at300 [(10, 0x11)])).pc = 0x302 := by
  decide

theorem test_sneImm :
    (after 0x4A10 (at300 [(10, 0x10)])).pc = 0x302 ∧ (after 0x4A10 (at300 [(10, 0x11)])).pc = 0x304 := by decide

theorem test_seReg :
    (after 0x5120 (at300 [(1, 7), (2, 7)])).pc = 0x304 ∧ (after 0x5120 (at300 [(1, 7), (2, 8)])).pc = 0x302 := by decide

theorem test_sneReg :
    (after 0x9120 (at300 [(1, 7), (2, 8)])).pc = 0x304 ∧ (after 0x9120 (at300 [(1, 7), (2, 7)])).pc = 0x302 := by decide

theorem test_skp :
    (after 0xE39E (setKey (at300 [(3, 0x0A)]) 10 true)).pc = 0x304 ∧ (after 0xE39E (at300 [(3, 0x0A)])).pc = 0x302 := by
  decide

theorem test_skp_key_index :
    let t := after 0xE39E (at300 [(3, 0x10)])
    t.fault = some { cause := .keyIndexFault 16, pc := 0x300, word := some 0xE39E } ∧ t.pc = 0x300 := by decide

theorem test_sknp :
    (after 0xE3A1 (setKey (at300 [(3, 0x0A)]) 10 true)).pc = 0x302 ∧ (after 0xE3A1 (at300 [(3, 0x0A)])).pc = 0x304 := by
  decide

theorem test_sknp_key_index :
    (after 0xE3A1 (at300 [(3, 0xFF)])).fault =
      some { cause := .keyIndexFault 255, pc := 0x300, word := some 0xE3A1 } := by decide

/-! ### Loads and the ALU; `VF` is 0x55 before unless set (95_test_vectors.md 2.4) -/

theorem test_ldImm : (after 0x6A2B (alu [])).getV 10 = 0x2B ∧ (after 0x6A2B (alu [])).getV 15 = 0x55 := by decide

theorem test_addImm_wraps_without_flag :
    (after 0x7105 (alu [(1, 0xFE)])).getV 1 = 0x03 ∧ (after 0x7105 (alu [(1, 0xFE)])).getV 15 = 0x55 := by decide

theorem test_addImm_flag_register : (after 0x7F01 (alu [])).getV 15 = 0x56 := by decide

theorem test_ldReg : (after 0x8120 (alu [(2, 0x7F)])).getV 1 = 0x7F := by decide

theorem test_orReg :
    (after 0x8121 (alu [(1, 0xF0), (2, 0x0F)])).getV 1 = 0xFF ∧ (after 0x8121 (alu [(1, 0xF0), (2, 0x0F)])).getV 15 = 0x55 := by
  decide

theorem test_andReg :
    (after 0x8122 (alu [(1, 0xF3), (2, 0x3F)])).getV 1 = 0x33 ∧ (after 0x8122 (alu [(1, 0xF3), (2, 0x3F)])).getV 15 = 0x55 := by
  decide

theorem test_xorReg :
    (after 0x8123 (alu [(1, 0xF3), (2, 0x3F)])).getV 1 = 0xCC ∧ (after 0x8123 (alu [(1, 0xF3), (2, 0x3F)])).getV 15 = 0x55 := by
  decide

theorem test_addReg :
    let t := after 0x8124 (alu [(1, 0xFF), (2, 0x01)])
    t.getV 1 = 0x00 ∧ t.getV 15 = 0x01 ∧ t.getV 2 = 0x01 := by decide

theorem test_addReg_flag_operand :
    (after 0x8F14 (alu [(15, 0xFF), (1, 0x02)])).getV 15 = 0x03 ∧ (after 0x81F4 (alu [(1, 0x10), (15, 0xF8)])).getV 1 = 0x11 := by
  decide

theorem test_sub_borrow :
    (after 0x8125 (alu [(1, 0x01), (2, 0x02)])).getV 1 = 0xFF ∧ (after 0x8125 (alu [(1, 0x01), (2, 0x02)])).getV 15 = 0 := by
  decide

theorem test_sub_equal :
    (after 0x8125 (alu [(1, 0x05), (2, 0x05)])).getV 1 = 0x00 ∧ (after 0x8125 (alu [(1, 0x05), (2, 0x05)])).getV 15 = 1 := by
  decide

theorem test_shr_ignores_y :
    let t := after 0x8AB6 (alu [(10, 0x05), (11, 0xFF)])
    t.getV 10 = 0x02 ∧ t.getV 15 = 0x01 ∧ t.getV 11 = 0xFF := by decide

theorem test_shr_flag_operand : (after 0x8F06 (alu [(15, 0x03)])).getV 15 = 0x00 := by decide

theorem test_subn :
    (after 0x8127 (alu [(1, 0x02), (2, 0x01)])).getV 1 = 0xFF ∧ (after 0x8127 (alu [(1, 0x02), (2, 0x01)])).getV 15 = 0 := by
  decide

theorem test_subn_flag_operand :
    (after 0x81F7 (alu [(1, 0x05), (15, 0x09)])).getV 1 = 0xFC ∧ (after 0x81F7 (alu [(1, 0x05), (15, 0x09)])).getV 15 = 1 := by
  decide

theorem test_shl :
    (after 0x8A0E (alu [(10, 0x81)])).getV 10 = 0x02 ∧ (after 0x8A0E (alu [(10, 0x81)])).getV 15 = 0x01 := by decide

theorem test_shl_flag_operand : (after 0x8F0E (alu [(15, 0x80)])).getV 15 = 0x02 := by decide

/-- Any random byte: `CXNN` with `NN = 0` gives 0, and consumes one byte. -/
theorem test_rnd_mask_zero :
    (after 0xC300 (alu [(3, 0x77)])).getV 3 = 0x00 ∧ (after 0xC300 (alu [])).randDraws = 1 := by
  exact ⟨BitVec.and_zero, rfl⟩

/-! ### Index register and memory transfer (95_test_vectors.md 2.5) -/

theorem test_ldI : (after 0xAFFF (State.reset.setI 0xFFFF)).i = 0x0FFF := by decide

theorem test_addI_passage :
    (after 0xF21E ((alu [(2, 1)]).setI 0x0FFE)).getV 15 = 0 ∧ (after 0xF21E ((alu [(2, 1)]).setI 0x0FFF)).getV 15 = 1 := by
  decide

theorem test_addI_wraps :
    (after 0xF21E ((alu [(2, 1)]).setI 0xFFFF)).i = 0 ∧ (after 0xFF1E ((alu [(15, 7)]).setI 0x0FFF)).i = 0x1000 := by decide

theorem test_ldF : (after 0xF029 (alu [(0, 0x0A)])).i = 0x0032 ∧ (after 0xF029 (alu [(0, 0xFF)])).i = 0x04FB := by decide

theorem test_ldB :
    let t := after 0xF033 ((alu [(0, 234)]).setI 0x300)
    t.byteAt 0x300 = 2 ∧ t.byteAt 0x301 = 3 ∧ t.byteAt 0x302 = 4 ∧ t.i = 0x300 := by decide

theorem test_ldB_out_of_range :
    let t := after 0xF033 ((alu [(0, 7)]).setI 0xFFE)
    t.fault = some { cause := .memoryFault .write 0x1000, pc := 0x200, word := some 0xF033 } ∧ t.byteAt 0xFFE = 0 := by
  decide

theorem test_stRegs :
    let t := after 0xF255 ((alu [(0, 0x11), (1, 0x22), (2, 0x33)]).setI 0x300)
    t.byteAt 0x300 = 0x11 ∧ t.byteAt 0x302 = 0x33 ∧ t.byteAt 0x303 = 0 ∧ t.i = 3 := by decide

/-- Without write protection a font byte can be overwritten. -/
theorem test_stRegs_over_font : (after 0xF055 ((alu [(0, 0xAB)]).setI 1)).byteAt 1 = 0xAB := by decide

theorem test_ldRegs :
    let t := after 0xF265 (withBytes 0x300 [2, 3, 4] ((alu [(3, 9)]).setI 0x300))
    t.getV 0 = 2 ∧ t.getV 2 = 4 ∧ t.getV 3 = 9 ∧ t.i = 3 := by decide

theorem test_ldRegs_out_of_range :
    let t := after 0xF265 ((alu [(0, 9)]).setI 0xFFE)
    t.fault = some { cause := .memoryFault .read 0x1000, pc := 0x200, word := some 0xF265 } ∧ t.getV 0 = 9 := by decide

/-! ### Display (95_test_vectors.md 2.6) -/

theorem test_cls :
    let t := after 0x00E0 ((alu []).setCell 3 4 true)
    t.cell 3 4 = false ∧ t.redraw = true ∧ t.getV 15 = 0x55 := by decide

/-- A set pixel is cleared with the flag raised, its neighbours are set. -/
theorem test_drw_collision :
    let t := after 0xD011 (withBytes 0x300 [0xFF] (((alu [(0, 4), (1, 2)]).setI 0x300).setCell 2 7 true))
    t.cell 2 4 = true ∧ t.cell 2 7 = false ∧ t.cell 2 11 = true ∧ t.cell 2 12 = false ∧ t.getV 15 = 1 := by decide

/-- A set bit past the last column faults and the whole draw is undone. -/
theorem test_drw_off_grid :
    let t := after 0xD011 (withBytes 0x300 [0xC0] ((alu [(0, 63), (1, 31)]).setI 0x300))
    t.fault = some { cause := .displayFault 31 64, pc := 0x200, word := some 0xD011 } ∧ t.cell 31 63 = false ∧
      t.getV 15 = 0x55 := by decide

/-! ### Timers, tick, key wait (95_test_vectors.md 2.7) -/

theorem test_ldVxDt :
    (after 0xF107 (State.reset.setDt 2)).getV 1 = 2 ∧ (after 0xF107 (State.reset.setDt 2)).dt = 1 := by decide

theorem test_ldDtVx : (after 0xF015 (alu [(0, 3)])).dt = 2 := by decide

theorem test_ldStVx :
    (after 0xF018 (alu [(0, 1)])).st = 0 ∧ (outputs 0xF018 (alu [(0, 1)])).soundEvent = true := by decide

theorem test_ldStVx_zero_cancels : (outputs 0xF018 ((alu [(0, 0)]).setSt 1)).soundEvent = false := by decide

theorem test_ldVxK_highest_key :
    (after 0xF50A (setKey (setKey State.reset 3 true) 9 true)).getV 5 = 9 := by decide

theorem test_ldVxK_blocked :
    let s := (State.reset.setDt 2).setSt 1
    (after 0xF50A s).pc = 0x200 ∧ (after 0xF50A s).dt = 1 ∧
      outputs 0xF50A s = { status := .blocked, soundEvent := true } := by decide

theorem test_unknown_ticks :
    let s := (State.reset.setDt 2).setSt 1
    (after 0x0000 s).pc = 0x200 ∧ (after 0x0000 s).dt = 1 ∧
      outputs 0x0000 s = { status := .unknownOpcode 0x0000, soundEvent := true } := by decide

theorem test_fault_has_no_tick :
    let s := (State.reset.setDt 2).setSt 1
    (after 0x00EE s).dt = 2 ∧ (outputs 0x00EE s).soundEvent = false := by decide

/-! ### Host operations (95_test_vectors.md 2.8) -/

theorem test_setKey : (setKey State.reset 9 true).keyAt 9 = true ∧ setKey State.reset 16 true = State.reset := by decide

theorem test_loadProgram :
    (loadProgram State.reset [0x12, 0x00]).1 = .success ∧ (loadProgram State.reset [0x12, 0x00]).2.byteAt 0x200 = 0x12 := by
  decide

/-- From reset with nothing loaded the step is an unknown opcode at 0x200 (70_reset_and_hazards.md R202). -/
theorem test_reset_step : stepOutput State.reset = { status := .unknownOpcode 0x0000, soundEvent := false } := by decide

/-! ### States that meet the hypotheses of the statements, each clause at a boundary

A theorem `witness_<statement>` shows that the hypotheses of `Obligations.<Statement>` are met together. Hypotheses that
only bound an operand are shown at the values where the clauses meet. -/

/-- A state in the middle of a run: one call made, one memory byte changed, a timer running, `PC` at a `RET`. -/
def busy : State :=
  withBytes 0x212 [0x00, 0xEE] { State.reset with
    pc := 0x212, sp := 1, stack := 0x0204 :: List.replicate 15 0, dt := 3, st := 1 }

theorem busy_fault : busy.fault = none := by decide

theorem busy_invariant : Invariant busy where
  configLegal := by decide
  stackSlots := by decide
  spBounded := by decide
  liveEntries := by decide
  memoryCanonical := by decide
  latchConsistent := fun r h => by rw [busy_fault] at h; cases h

theorem witness_invariantHoldsAtReset_bounds :
    ∃ c d : Config, c.ramSize = 512 ∧ c.stackDepth = 0 ∧ c.wellFormed = true ∧ d.ramSize = 65536 ∧ d.wellFormed = true :=
  ⟨{ Config.customary with ramSize := 512, stackDepth := 0 }, { Config.customary with ramSize := 65536 }, by decide⟩

theorem witness_stepKeepsInvariant : Invariant busy ∧ ∃ t, step busy = .next t ∧ t.sp = 0 ∧ t.pc = 0x206 ∧ t.dt = 2 :=
  ⟨busy_invariant, _, rfl, by decide⟩

theorem witness_hostOperationsKeepInvariant :
    Invariant busy ∧ Move.loadProgram [0x12] ≠ Move.step ∧
      ∃ t, applyMove (.loadProgram [0x12]) busy = .next t ∧ t.byteAt 0x200 = 0x12 :=
  ⟨busy_invariant, by decide, _, rfl, by decide⟩

theorem witness_decodeOfEncode_bounds :
    (Instr.drw 15 15 15).wellFormed = true ∧ (Instr.drw 0 0 0).wellFormed = true ∧ Instr.cls.wellFormed = true := by decide

theorem witness_encodeOfDecode : decode 0xDABF#16 = .ok (.drw 10 11 15) := by decide

theorem witness_decoderFollowsOpcodeMap :
    (∃ i, decode 0x8AB6#16 = .ok i) ∧ (∃ e, decode 0x8AB8#16 = .error e) ∧
      ∃ r ∈ opcodeMap, 0x8AB6#16 &&& r.mask = r.pattern := ⟨⟨_, rfl⟩, ⟨_, rfl⟩, by decide⟩

/-- The last address a fetch can read, and the first it cannot. -/
theorem witness_fetchReadsBigEndianOrFaults_bounds :
    (State.reset.setPc 0xFFE).pc.toNat + 1 < (State.reset.setPc 0xFFE).config.ramSize ∧
      (State.reset.setPc 0xFFF).config.ramSize ≤ (State.reset.setPc 0xFFF).pc.toNat + 1 := by decide

theorem witness_stepRunsDecodedInstruction_completes :
    busy.fault = none ∧ busy.pc.toNat + 1 < busy.config.ramSize ∧
      decodeBytes [busy.byteAt busy.pc.toNat, busy.byteAt (busy.pc.toNat + 1)] = .ok (.ret, []) ∧
      ∃ t, exec .ret busy = .next t ∧ t.fault = none :=
  ⟨by decide, by decide, by decide, _, rfl, by decide⟩

/-- The same state with an empty stack: the `RET` enters a fault. -/
def underflowing : State := { busy with sp := 0 }

theorem witness_stepRunsDecodedInstruction_faults :
    underflowing.fault = none ∧ underflowing.pc.toNat + 1 < underflowing.config.ramSize ∧
      decodeBytes [underflowing.byteAt underflowing.pc.toNat, underflowing.byteAt (underflowing.pc.toNat + 1)] =
        .ok (.ret, []) ∧
      ∃ t, exec .ret underflowing = .next t ∧ t.fault ≠ none :=
  ⟨by decide, by decide, by decide, _, rfl, by decide⟩

theorem witness_unknownOpcodeStepOnlyTicks :
    State.reset.fault = none ∧ fetch State.reset = .ok 0x0000 ∧ decode 0x0000 = .error (.unknownOpcode 0x0000) := by decide

theorem witness_fetchFaultIsLatched_bounds :
    (State.reset.setPc 0xFFF).fault = none ∧
      (State.reset.setPc 0xFFF).config.ramSize ≤ (State.reset.setPc 0xFFF).pc.toNat + 1 ∧
      (State.reset.setPc 0xFFFF).config.ramSize ≤ (State.reset.setPc 0xFFFF).pc.toNat + 1 := by decide

theorem witness_latchedFaultFreezesMachine : ∃ r, (after 0x00EE State.reset).fault = some r := ⟨_, rfl⟩

theorem witness_faultingStepHasNoPartialEffect_execute :
    underflowing.fault = none ∧ (∃ w, fetch underflowing = .ok w) ∧
      ∃ t r, step underflowing = .next t ∧ t.fault = some r := ⟨by decide, ⟨_, rfl⟩, _, _, rfl, rfl⟩

theorem witness_faultingStepHasNoPartialEffect_fetch :
    (State.reset.setPc 0xFFF).fault = none ∧ (∃ c, fetch (State.reset.setPc 0xFFF) = .error c) ∧
      ∃ t r, step (State.reset.setPc 0xFFF) = .next t ∧ t.fault = some r := ⟨by decide, ⟨_, rfl⟩, _, _, rfl, rfl⟩

/-- A step that sets the delay timer, which then leaves the sound timer to count down. -/
theorem witness_timersCountDownOncePerStep_delaySet :
    let s := ((alu [(0, 3)]).setSt 1).withFetchWord 16 0xF015
    s.fault = none ∧ currentInstr s = some (.ldDtVx 0) ∧ ∃ t, step s = .next t ∧ t.fault = none :=
  ⟨by decide, by decide, _, rfl, by decide⟩

theorem witness_timersCountDownOncePerStep_soundSet :
    let s := (alu [(0, 3)]).withFetchWord 16 0xF018
    s.fault = none ∧ currentInstr s = some (.ldStVx 0) ∧ ∃ t, step s = .next t ∧ t.fault = none :=
  ⟨by decide, by decide, _, rfl, by decide⟩

theorem witness_timersCountDownOncePerStep_noneSet :
    State.reset.fault = none ∧ (∀ x, currentInstr State.reset ≠ some (.ldDtVx x)) ∧
      (∀ x, currentInstr State.reset ≠ some (.ldStVx x)) ∧ ∃ t, step State.reset = .next t ∧ t.fault = none :=
  ⟨by decide, by decide, by decide, _, rfl, by decide⟩

theorem witness_stepOutputsOfInstruction_faults :
    currentInstr underflowing = some .ret ∧ ∃ t r, exec .ret underflowing = .next t ∧ t.fault = some r :=
  ⟨by decide, _, _, rfl, rfl⟩

theorem witness_stepOutputsOfInstruction_blocks :
    let s := State.reset.withFetchWord 16 0xF50A
    currentInstr s = some (.ldVxK 5) ∧ (∀ k, s.keyAt k = false) ∧ ∃ t, exec (.ldVxK 5) s = .next t ∧ t.fault = none :=
  ⟨by decide, by decide, _, rfl, by decide⟩

theorem witness_stepOutputsOfInstruction_advances :
    currentInstr busy = some .ret ∧ (∀ x, Instr.ret ≠ .ldVxK x) ∧ ∃ t, exec .ret busy = .next t ∧ t.fault = none :=
  ⟨by decide, by decide, _, rfl, by decide⟩

theorem witness_stepOutputsOfInstruction_key :
    let s := (setKey State.reset 15 true).withFetchWord 16 0xF50A
    currentInstr s = some (.ldVxK 5) ∧ (∃ k, s.keyAt k = true) ∧ ∃ t, exec (.ldVxK 5) s = .next t ∧ t.fault = none :=
  ⟨by decide, by decide, _, rfl, by decide⟩

/-- Program P9 of 95_test_vectors.md ends at its self-jump `1208`; a fault ends a run at any address. -/
theorem witness_endedRunChangesOnlyTimers :
    (withBytes 0x208 [0x12, 0x08] (State.reset.setPc 0x208)).spinsAt 0x208 = true ∧
      (after 0x00EE State.reset).runEnded 0x208 = true := by decide

/-- A jump elsewhere, the self-jump of another address, and a program that still runs have not ended. -/
theorem test_runEnded_not_yet :
    (withBytes 0x208 [0x12, 0x06] (State.reset.setPc 0x208)).runEnded 0x206 = false ∧
      (withBytes 0x208 [0x12, 0x08] (State.reset.setPc 0x208)).runEnded 0x206 = false ∧
      busy.runEnded 0x212 = false := by decide

theorem witness_instructionsWriteOnlyTheirState :
    busy.fault = none ∧ ∃ t, exec (.stRegs 15) busy = .next t ∧ t.fault = none := ⟨by decide, _, rfl, by decide⟩

theorem witness_faultsOnlyFromTheirInstructions :
    underflowing.fault = none ∧ ∃ t r, exec .ret underflowing = .next t ∧ t.fault = some r :=
  ⟨by decide, _, _, rfl, rfl⟩

theorem witness_flagRegisterAsOperandTable_bounds : (0 : Reg) ≠ 15 ∧ (14 : Reg) ≠ 15 := by decide

/-- The last key index, the first that faults, and the largest. -/
theorem witness_keySkipsFollowLatchOrFault_bounds :
    ((alu [(3, 15)]).getV 3).toNat = (15 : Reg).val ∧ 16 ≤ ((alu [(3, 16)]).getV 3).toNat ∧
      16 ≤ ((alu [(3, 255)]).getV 3).toNat := by decide

/-- The last free slot, and the full stack. -/
theorem witness_callPushesItsAddressOrFaults_bounds :
    let s := { State.reset with sp := 15 }
    let t := { State.reset with sp := 16 }
    s.stack.length = s.config.stackDepth ∧ s.sp < s.config.stackDepth ∧ t.stack.length = t.config.stackDepth ∧
      t.config.stackDepth ≤ t.sp := by decide

/-- A stack of no slots, on which every call faults. -/
theorem witness_callPushesItsAddressOrFaults_noSlots :
    let s := State.construct { Config.customary with stackDepth := 0 }
    s.stack.length = s.config.stackDepth ∧ s.config.stackDepth ≤ s.sp := by decide

theorem witness_returnPopsAddressOrFaults_bounds :
    (0 < busy.sp ∧ busy.stack[busy.sp - 1]? = some 0x0204) ∧
      (let s := { State.reset with sp := 16 }; 0 < s.sp ∧ s.stack[s.sp - 1]? = some 0) ∧ underflowing.sp = 0 := by decide

theorem witness_returnResumesAfterCallSite :
    State.reset.stack.length = State.reset.config.stackDepth ∧ State.reset.sp < State.reset.config.stackDepth ∧
      ∃ t u : State, exec (.call 0x300) State.reset = .next t ∧ u.stack = t.stack ∧ u.sp = t.sp ∧ u.pc ≠ t.pc :=
  ⟨by decide, by decide, _, { State.reset with pc := 0x310, sp := 1, stack := 0x0200 :: List.replicate 15 0 }, rfl,
    by decide, by decide, by decide⟩

theorem witness_decimalDigitsAreStoredOrFault_bounds :
    (let s := State.reset.setI 0xFFD; s.i.toNat + 2 < s.config.ramSize) ∧
      (let s := State.reset.setI 0xFFE; s.config.ramSize ≤ s.i.toNat + 2) := by decide

theorem witness_registerTransfers_bounds :
    (let s := State.reset.setI 0xFF0; s.i.toNat + (15 : Reg).val < s.config.ramSize) ∧
      (let s := State.reset.setI 0xFF1; s.config.ramSize ≤ s.i.toNat + (15 : Reg).val) ∧
      (let s := State.reset.setI 0xFFF; s.i.toNat + (0 : Reg).val < s.config.ramSize) ∧
      (let s := State.reset.setI 0x1000; s.config.ramSize ≤ s.i.toNat + (0 : Reg).val) := by decide

theorem witness_loadAfterStoreRestoresRegisters :
    let s := (alu [(0, 7)]).setI 0xFF0
    ∃ t u : State, exec (.stRegs 15) s = .next t ∧ s.i.toNat + (15 : Reg).val < s.config.ramSize ∧ u.i = s.i ∧
      u.config = t.config ∧ u.memory = t.memory ∧ u.getV 0 ≠ s.getV 0 := by
  refine ⟨_, (copyBytes 0xFF0 [7, 0, 0, 0, 0, 0, 0, 0, 0, 0, 0, 0, 0, 0, 0, 0x55] State.reset).setI 0xFF0, rfl, ?_⟩
  decide

theorem witness_byteReadsBackAsWritten_bounds :
    4095 < State.reset.config.ramSize ∧ State.reset.config.ramSize ≤ 4096 ∧
      Memory.wf State.reset.config State.reset.memory = true := by decide

theorem witness_storedWordIsFetchedNext :
    let s := ((alu [(0, 0x12), (1, 0x08)]).setI 0x202).withFetchWord 16 0xF155
    currentInstr s = some (.stRegs 1) ∧ s.config.wellFormed = true ∧ s.i.toNat + (1 : Reg).val < s.config.ramSize ∧
      (1 : Reg) ≤ 1 ∧ s.i.toNat + (0 : Reg).val = s.pc.toNat + 2 ∧ s.i.toNat + (1 : Reg).val = s.pc.toNat + 3 ∧
      ∃ t, step s = .next t := ⟨by decide, by decide, by decide, by decide, by decide, by decide, _, rfl⟩

/-- All sixteen registers, the last two of them over the next instruction, whose own word is overwritten too. -/
theorem witness_storedWordIsFetchedNext_lastRegisters :
    let s := ((alu [(14, 0x12)]).setI 0x1F4).withFetchWord 16 0xFF55
    currentInstr s = some (.stRegs 15) ∧ s.i.toNat + (15 : Reg).val < s.config.ramSize ∧
      s.i.toNat + (14 : Reg).val = s.pc.toNat + 2 ∧ s.i.toNat + (15 : Reg).val = s.pc.toNat + 3 ∧
      ∃ t, step s = .next t := ⟨by decide, by decide, by decide, by decide, _, rfl⟩

theorem witness_storedWordIsFetchedNext_digits :
    let s := ((alu [(0, 234)]).setI 0x202).withFetchWord 16 0xF033
    let u := ((alu [(0, 234)]).setI 0x201).withFetchWord 16 0xF033
    (currentInstr s = some (.ldB 0) ∧ s.i.toNat + 2 < s.config.ramSize ∧ s.i.toNat = s.pc.toNat + 2) ∧
      (currentInstr u = some (.ldB 0) ∧ u.i.toNat + 2 < u.config.ramSize ∧ u.i.toNat = u.pc.toNat + 1) ∧
      (∃ t, step s = .next t) ∧ ∃ t, step u = .next t := ⟨by decide, by decide, ⟨_, rfl⟩, ⟨_, rfl⟩⟩

/-- A state with the one-row sprite `b` at `I = 0x300`. -/
def sprite (b : Byte) : State := withBytes 0x300 [b] (State.reset.setI 0x300)

/-- One set bit at the last corner of the grid. -/
theorem witness_drawComposesSpriteByXor_corner : SpriteFits (sprite 0x80) 63 31 1 := by
  intro j hj
  obtain rfl : j = 0 := by omega
  refine ⟨by decide, fun k hk => ?_⟩
  unfold SpriteSet
  interval_cases k <;> decide

/-- A sprite of no rows fits anywhere. -/
theorem witness_drawComposesSpriteByXor_noRows : SpriteFits (State.reset.setI 0xFFFF) 200 200 0 :=
  fun j hj => absurd hj (Nat.not_lt_zero j)

/-- The bit lands on a cell that is 1, and on a cell that is 0. -/
theorem witness_drawComposesSpriteByXor_collision :
    (∃ r c, Lands (sprite 0x80) 63 31 1 r c ∧ ((sprite 0x80).setCell 31 63 true).cell r c = true) ∧
      Lands (sprite 0x80) 63 31 1 31 63 ∧ (sprite 0x80).cell 31 63 = false ∧ ¬Lands (sprite 0x80) 63 31 1 0 0 := by
  have h : Lands (sprite 0x80) 63 31 1 31 63 := ⟨0, 0, by decide, by decide, rfl, rfl, by unfold SpriteSet; decide⟩
  exact ⟨⟨31, 63, h, by decide⟩, h, by decide, fun ⟨j, k, _, _, hr, _⟩ => by omega⟩

/-- The first set bit past the last column, past the last row, the first row outside memory, and no fault. -/
theorem witness_drawFaultIsFirstOffender :
    (drawFaults (sprite 0xC0) 63 31 1).head? = some (.displayFault 31 64) ∧
      (drawFaults (sprite 0x80) 0 32 1).head? = some (.displayFault 32 0) ∧
      (drawFaults (withBytes 0xFFF [0x80] (State.reset.setI 0xFFF)) 0 0 2).head? =
        some (.memoryFault .read 0x1000) ∧
      (drawFaults (sprite 0x80) 63 31 1).head? = none := by decide

theorem witness_drawingTwiceRestoresDisplay :
    (0 : Reg) ≠ 15 ∧ (1 : Reg) ≠ 15 ∧
      SpriteFits (sprite 0x80) ((sprite 0x80).getV 0).toNat ((sprite 0x80).getV 1).toNat 1 ∧
      (∀ r c, Lands (sprite 0x80) 0 0 1 r c → (sprite 0x80).cell r c = false) ∧
      ∃ t, exec (.drw 0 1 1) (sprite 0x80) = .next t := by
  refine ⟨by decide, by decide, ?_, ?_, _, rfl⟩
  · intro j hj
    obtain rfl : j = 0 := by omega
    refine ⟨by decide, fun k hk => ?_⟩
    unfold SpriteSet
    interval_cases k <;> decide
  · rintro r c ⟨j, k, hj, hk, rfl, rfl, -⟩
    obtain rfl : j = 0 := by omega
    interval_cases k <;> decide

/-- One key, the lowest or the highest of two, and no key. -/
theorem witness_keyWaitTakesHighestKeyOrBlocks :
    (let s := setKey State.reset 0 true; s.keyAt 0 = true ∧ ∀ l, s.keyAt l = true → l ≤ 0) ∧
      (let s := setKey (setKey State.reset 3 true) 15 true; s.keyAt 15 = true ∧ ∀ l, s.keyAt l = true → l ≤ 15) ∧
      ∀ k, State.reset.keyAt k = false := by decide

/-- The longest program that fits, the first that does not, and the empty one in the smallest memory. -/
theorem witness_loadProgramCopiesOrRefuses_bounds :
    (List.replicate 3584 (0x12 : Byte)).length ≤ State.reset.config.ramSize - 512 ∧
      State.reset.config.ramSize - 512 < (List.replicate 3585 (0x12 : Byte)).length ∧
      ([] : List Byte).length ≤ (State.construct { Config.customary with ramSize := 512 }).config.ramSize - 512 := by
  rw [List.length_replicate, List.length_replicate]
  decide

end Sys2Proof.Tests
end

section
/-!
Control flow (spec/41_control_flow.md): the laws of writing `PC` alone, the two jumps in closed form, and the proof that
settles their obligation.
-/

namespace Sys2Proof.Machine

/-! ### Writing the program counter, and the fetch that follows -/

/-- Writing `PC` leaves every other piece of state as it was. -/
theorem State.setPc_onlyChanges (s : State) (w : Word) : OnlyChanges [.pc] s (s.setPc w) := by
  intro p hp
  cases p with
  | pc => exact absurd List.mem_cons_self hp
  | v | memory | key => exact fun _ => rfl
  | display => exact fun _ _ => rfl
  | _ => exact rfl

/-- A fetch faults exactly when the second of its two bytes is not in memory (20_memory.md R44). -/
theorem fetch_error_iff (s : State) : (∃ c, fetch s = .error c) ↔ s.config.ramSize ≤ s.pc.toNat + 1 := by
  constructor
  · rintro ⟨c, hc⟩
    by_contra hin
    rw [fetch_inRange (Nat.lt_of_not_le hin)] at hc
    cases hc
  · exact fun hout => ⟨_, fetch_outOfRange hout⟩

/-- An instruction whose execute phase is one write of `PC` has the frame of that write, and its target decides the next
fetch. -/
theorem completes_of_exec_setPc {i : Instr} {s : State} {w : Word} {n : Nat}
    (he : exec i s = .next (s.setPc w)) (hw : w.toNat = n) :
    Completes i s fun t => t.pc.toNat = n ∧ OnlyChanges [.pc] s t ∧
      ((∃ c, fetch t = .error c) ↔ s.config.ramSize ≤ n + 1) := by
  subst hw
  exact ⟨s.setPc w, he, rfl, s.setPc_onlyChanges w, fetch_error_iff (s.setPc w)⟩

/-! ### The jumps -/

theorem decode_jp (nnn : Addr) : decode (formAddr 0x1#4 nnn) = .ok (.jp nnn) := by
  simp [decode]

theorem decode_jpV0 (nnn : Addr) : decode (formAddr 0xB#4 nnn) = .ok (.jpV0 nnn) := by
  simp [decode]

theorem exec_jp (nnn : Addr) (s : State) : exec (.jp nnn) s = .next (s.setPc (zextAddr nnn)) := rfl

theorem exec_jpV0 (nnn : Addr) (s : State) :
    exec (.jpV0 nnn) s = .next (s.setPc (zextAddr nnn + zextByte (s.getV 0))) := rfl

/-- An address plus a byte is below `2 ^ 16`, so the target of `BNNN` never wraps (41_control_flow.md R103). -/
theorem zextAddr_add_zextByte_toNat (nnn : Addr) (b : Byte) :
    (zextAddr nnn + zextByte b).toNat = nnn.toNat + b.toNat := by
  have hn : nnn.toNat < 4096 := nnn.isLt
  have hb : b.toNat < 256 := b.isLt
  rw [BitVec.toNat_add, zextAddr_toNat, zextByte_toNat]
  omega

/-- Settles O27: each jump is one write of `PC`, with the target as a number, so the frame and the condition of the next
fetch are those of that write. -/
theorem jumpsSetProgramCounter : Obligations.JumpsSetProgramCounter := by
  intro s nnn
  exact ⟨⟨decode_jp nnn, completes_of_exec_setPc (exec_jp nnn s) (zextAddr_toNat nnn)⟩,
    decode_jpV0 nnn, completes_of_exec_setPc (exec_jpV0 nnn s) (zextAddr_add_zextByte_toNat nnn (s.getV 0))⟩

end Sys2Proof.Machine
end

section
/-!
The conditional skips (spec/42_skip.md): the decoder on the words of the register skips, the one write of `PC` behind
every skip, and the proof that settles the register skips' obligation.
-/

namespace Sys2Proof.Machine

/-! ### What every skip does -/

/-- An instruction whose execute phase is one conditional skip skips exactly on the proposition its test decides. -/
theorem skipsIf_of_exec_skipIf {i : Instr} {s : State} {c : Bool} {p : Prop}
    (he : exec i s = .next (s.skipIf c)) (hc : c = true ↔ p) : SkipsIf i s p := by
  have hpc := s.skipIf_advancesBy c
  refine ⟨s.skipIf c, he, fun hp => ?_, fun hp => ?_, s.setPc_onlyChanges _⟩
  · rwa [if_pos (hc.mpr hp)] at hpc
  · rwa [if_neg fun h => hp (hc.mp h)] at hpc

/-! ### The words of the register skips -/

theorem decode_seImm (x : Reg) (nn : Byte) : decode (formRegImm 0x3#4 x nn) = .ok (.seImm x nn) := by
  simp [decode]

theorem decode_sneImm (x : Reg) (nn : Byte) : decode (formRegImm 0x4#4 x nn) = .ok (.sneImm x nn) := by
  simp [decode]

/-- Family 5 is `SE Vx, Vy` where the low nibble is 0, and unknown elsewhere (42_skip.md R112). -/
theorem decode_family5 (x y : Reg) (n : Nibble) :
    decode (formRegReg 0x5#4 x y n) =
      if n = 0 then .ok (.seReg x y) else .error (.unknownOpcode (formRegReg 0x5#4 x y n)) := by
  simp [decode]

/-- Family 9 is `SNE Vx, Vy` where the low nibble is 0, and unknown elsewhere (42_skip.md R113). -/
theorem decode_family9 (x y : Reg) (n : Nibble) :
    decode (formRegReg 0x9#4 x y n) =
      if n = 0 then .ok (.sneReg x y) else .error (.unknownOpcode (formRegReg 0x9#4 x y n)) := by
  simp [decode]

/-! ### The register skips -/

theorem seImm_skipsIf (x : Reg) (nn : Byte) (s : State) : SkipsIf (.seImm x nn) s (s.getV x = nn) :=
  skipsIf_of_exec_skipIf rfl beq_iff_eq

theorem sneImm_skipsIf (x : Reg) (nn : Byte) (s : State) : SkipsIf (.sneImm x nn) s (s.getV x ≠ nn) :=
  skipsIf_of_exec_skipIf rfl bne_iff_ne

theorem seReg_skipsIf (x y : Reg) (s : State) : SkipsIf (.seReg x y) s (s.getV x = s.getV y) :=
  skipsIf_of_exec_skipIf rfl beq_iff_eq

theorem sneReg_skipsIf (x y : Reg) (s : State) : SkipsIf (.sneReg x y) s (s.getV x ≠ s.getV y) :=
  skipsIf_of_exec_skipIf rfl bne_iff_ne

/-- Settles O25: the four words decode in their forms, the low nibble deciding in families 5 and 9, and each instruction
is one conditional skip on its comparison. -/
theorem registerSkipsAdvanceByFourOrTwo : Obligations.RegisterSkipsAdvanceByFourOrTwo := by
  intro s x y nn
  refine ⟨⟨decode_seImm x nn, seImm_skipsIf x nn s⟩, ⟨decode_sneImm x nn, sneImm_skipsIf x nn s⟩,
    ⟨?_, fun n hn => ?_, seReg_skipsIf x y s⟩, ?_, fun n hn => ?_, sneReg_skipsIf x y s⟩
  · exact (decode_family5 x y 0).trans (if_pos rfl)
  · exact (decode_family5 x y n).trans (if_neg hn)
  · exact (decode_family9 x y 0).trans (if_pos rfl)
  · exact (decode_family9 x y n).trans (if_neg hn)

end Sys2Proof.Machine
end

section
/-!
The loads, add-immediate and the bitwise operations (spec/43_alu.md R122 to R127): the frame of writing one register,
the decoder on these instructions' words, and the proof that settles their obligation.
-/

namespace Sys2Proof.Machine

/-! ### Writing one register -/

/-- Writing a register leaves every piece of state but the registers as it was. -/
theorem State.setV_onlyChanges (s : State) (r : Reg) (b : Byte) : OnlyChanges [.v] s (s.setV r b) := by
  intro p hp
  cases p with
  | v => exact absurd List.mem_cons_self hp
  | memory | key => exact fun _ => rfl
  | display => exact fun _ _ => rfl
  | _ => exact rfl

/-- Writing a register leaves every other register as it was. -/
theorem State.setV_regsSameBut (s : State) (r : Reg) (b : Byte) : RegsSameBut [r] s (s.setV r b) :=
  fun _ hq => State.setV_getV_ne s (List.ne_of_not_mem_cons hq) b

/-- An instruction whose execute phase writes one register and advances has the byte written as its result, and no other
effect (43_alu.md sections 2 and 3). -/
theorem writesReg_of_exec_setV {i : Instr} {s : State} {x : Reg} {b : Byte} {n : Nat}
    (he : exec i s = .next (s.setV x b).advance) (hb : b.toNat = n) : WritesReg i s x n := by
  subst hb
  have hx : ((s.setV x b).advance).getV x = b := State.setV_getV_self s x b
  exact ⟨(s.setV x b).advance, he, congrArg BitVec.toNat hx, s.setV_regsSameBut x b,
    (s.setV x b).advance_advancesBy, (s.setV_onlyChanges x b).trans' ((s.setV x b).setPc_onlyChanges _)⟩

/-! ### The words of the loads and the bitwise operations -/

theorem decode_ldImm (x : Reg) (nn : Byte) : decode (formRegImm 0x6#4 x nn) = .ok (.ldImm x nn) := by
  simp [decode]

theorem decode_addImm (x : Reg) (nn : Byte) : decode (formRegImm 0x7#4 x nn) = .ok (.addImm x nn) := by
  simp [decode]

/-- A word with leading digit 8 is family 8's to decode, by its low nibble (30_encoding.md R64). -/
theorem decode_family8 (x y : Reg) (n : Nibble) :
    decode (formRegReg 0x8#4 x y n) = decodeFamily8 (formRegReg 0x8#4 x y n) := by
  simp [decode]

theorem decode_ldReg (x y : Reg) : decode (formRegReg 0x8#4 x y 0x0#4) = .ok (.ldReg x y) := by
  simp [decode_family8, decodeFamily8]

theorem decode_orReg (x y : Reg) : decode (formRegReg 0x8#4 x y 0x1#4) = .ok (.orReg x y) := by
  simp [decode_family8, decodeFamily8]

theorem decode_andReg (x y : Reg) : decode (formRegReg 0x8#4 x y 0x2#4) = .ok (.andReg x y) := by
  simp [decode_family8, decodeFamily8]

theorem decode_xorReg (x y : Reg) : decode (formRegReg 0x8#4 x y 0x3#4) = .ok (.xorReg x y) := by
  simp [decode_family8, decodeFamily8]

/-! ### The loads, add-immediate and the bitwise operations -/

theorem ldImm_writesReg (x : Reg) (nn : Byte) (s : State) : WritesReg (.ldImm x nn) s x nn.toNat :=
  writesReg_of_exec_setV rfl rfl

theorem addImm_writesReg (x : Reg) (nn : Byte) (s : State) :
    WritesReg (.addImm x nn) s x (((s.getV x).toNat + nn.toNat) % 256) :=
  writesReg_of_exec_setV rfl (BitVec.toNat_add (s.getV x) nn)

theorem ldReg_writesReg (x y : Reg) (s : State) : WritesReg (.ldReg x y) s x (s.getV y).toNat :=
  writesReg_of_exec_setV rfl rfl

theorem orReg_writesReg (x y : Reg) (s : State) :
    WritesReg (.orReg x y) s x ((s.getV x).toNat ||| (s.getV y).toNat) :=
  writesReg_of_exec_setV rfl (BitVec.toNat_or (s.getV x) (s.getV y))

theorem andReg_writesReg (x y : Reg) (s : State) :
    WritesReg (.andReg x y) s x ((s.getV x).toNat &&& (s.getV y).toNat) :=
  writesReg_of_exec_setV rfl (BitVec.toNat_and (s.getV x) (s.getV y))

theorem xorReg_writesReg (x y : Reg) (s : State) :
    WritesReg (.xorReg x y) s x ((s.getV x).toNat ^^^ (s.getV y).toNat) :=
  writesReg_of_exec_setV rfl (BitVec.toNat_xor (s.getV x) (s.getV y))

/-- Settles O21: each word decodes in its form, and each instruction is one write of `V[X]` and an advance, with the
byte written read as a number by the law of its operation. -/
theorem loadsAndLogicWriteResult : Obligations.LoadsAndLogicWriteResult := by
  intro s x y nn
  exact ⟨⟨decode_ldImm x nn, ldImm_writesReg x nn s⟩, ⟨decode_addImm x nn, addImm_writesReg x nn s⟩,
    ⟨decode_ldReg x y, ldReg_writesReg x y s⟩, ⟨decode_orReg x y, orReg_writesReg x y s⟩,
    ⟨decode_andReg x y, andReg_writesReg x y s⟩, decode_xorReg x y, xorReg_writesReg x y s⟩

end Sys2Proof.Machine
end

section
/-!
The index loads (spec/44_index_memory.md R140, R142): the frame of writing the index register, the decoder on the words
of `ANNN` and `FX29`, and the proof that settles their obligation.
-/

namespace Sys2Proof.Machine

/-! ### Writing the index register -/

/-- Writing `I` leaves every other piece of state as it was. -/
theorem State.setI_onlyChanges (s : State) (w : Word) : OnlyChanges [.i] s (s.setI w) := by
  intro p hp
  cases p with
  | i => exact absurd List.mem_cons_self hp
  | v | memory | key => exact fun _ => rfl
  | display => exact fun _ _ => rfl
  | _ => exact rfl

/-- An instruction whose execute phase writes `I` and advances has the word written as its result, and no other
effect. -/
theorem completes_of_exec_setI {i : Instr} {s : State} {w : Word} {n : Nat}
    (he : exec i s = .next (s.setI w).advance) (hw : w.toNat = n) :
    Completes i s fun t => t.i.toNat = n ∧ AdvancesBy 2 s t ∧ OnlyChanges [.i, .pc] s t := by
  subst hw
  exact ⟨(s.setI w).advance, he, rfl, (s.setI w).advance_advancesBy,
    (s.setI_onlyChanges w).trans' ((s.setI w).setPc_onlyChanges _)⟩

/-! ### The index loads -/

theorem decode_ldI (nnn : Addr) : decode (formAddr 0xA#4 nnn) = .ok (.ldI nnn) := by
  simp [decode]

theorem decode_ldF (x : Reg) : decode (formRegImm 0xF#4 x 0x29#8) = .ok (.ldF x) := by
  simp [decode, decodeFamilyF]

/-- The address of a glyph is at most `255 * 5`, so the product is never reduced (44_index_memory.md R142). -/
theorem glyphAddr_toNat (b : Byte) : (BitVec.ofNat 16 (b.toNat * 5)).toNat = b.toNat * 5 := by
  have hb : b.toNat < 256 := b.isLt
  rw [BitVec.toNat_ofNat, Nat.mod_eq_of_lt (by omega)]

/-- Settles O31: each word decodes in its form, and each instruction is one write of `I` and an advance, with the word
written read as a number. -/
theorem indexLoadsSetIndex : Obligations.IndexLoadsSetIndex := by
  intro s x nnn
  exact ⟨⟨decode_ldI nnn, completes_of_exec_setI rfl (zextAddr_toNat nnn)⟩,
    decode_ldF x, completes_of_exec_setI rfl (glyphAddr_toNat (s.getV x))⟩

end Sys2Proof.Machine
end

section
/-!
Clearing the display (spec/45_display.md R150): the frames of blanking the grid and of raising the redraw flag, what a
poll of that flag answers, and the proof that settles the obligation of `00E0`.
-/

namespace Sys2Proof.Machine

/-! ### The two writes of `00E0` -/

/-- Blanking the grid leaves every other piece of state as it was. -/
theorem State.clearDisplay_onlyChanges (s : State) : OnlyChanges [.display] s s.clearDisplay := by
  intro p hp
  cases p with
  | display => exact absurd List.mem_cons_self hp
  | v | memory | key => exact fun _ => rfl
  | _ => exact rfl

/-- Raising the redraw flag leaves every other piece of state as it was. -/
theorem State.raiseRedraw_onlyChanges (s : State) : OnlyChanges [.redraw] s s.raiseRedraw := by
  intro p hp
  cases p with
  | redraw => exact absurd List.mem_cons_self hp
  | v | memory | key => exact fun _ => rfl
  | display => exact fun _ _ => rfl
  | _ => exact rfl

/-! ### Polling the redraw flag -/

@[simp] theorem pollAndClearRedraw_fst (s : State) : (pollAndClearRedraw s).1 = s.redraw := rfl

@[simp] theorem pollAndClearRedraw_snd_redraw (s : State) : (pollAndClearRedraw s).2.redraw = false := rfl

/-- A state with the flag raised answers true to one poll, and false to the next. -/
theorem poll_true_then_false {s : State} (h : s.redraw = true) :
    (pollAndClearRedraw s).1 = true ∧ (pollAndClearRedraw (pollAndClearRedraw s).2).1 = false :=
  ⟨(pollAndClearRedraw_fst s).trans h,
    (pollAndClearRedraw_fst _).trans (pollAndClearRedraw_snd_redraw s)⟩

/-! ### `00E0` -/

theorem decode_cls : decode 0x00E0 = .ok .cls := by decide

theorem exec_cls (s : State) : exec .cls s = .next s.clearDisplay.raiseRedraw.advance := rfl

/-- The frame of `00E0` is that of its three writes, one after the other. -/
theorem clearAndRaise_advance_onlyChanges (s : State) :
    OnlyChanges [.display, .redraw, .pc] s s.clearDisplay.raiseRedraw.advance :=
  s.clearDisplay_onlyChanges.trans' <|
    s.clearDisplay.raiseRedraw_onlyChanges.trans' (s.clearDisplay.raiseRedraw.setPc_onlyChanges _)

/-- Settles O39: the execute phase blanks the grid, raises the flag and advances `PC`, so the cells, the flag and the
frame are those of the three writes, and the raised flag answers one poll. -/
theorem clearScreenBlanksDisplay : Obligations.ClearScreenBlanksDisplay := by
  refine ⟨decode_cls, fun s => ?_⟩
  have hredraw : s.clearDisplay.raiseRedraw.advance.redraw = true := State.raiseRedraw_redraw s.clearDisplay
  exact ⟨s.clearDisplay.raiseRedraw.advance, exec_cls s, s.clearDisplay_cell, hredraw,
    s.clearDisplay.raiseRedraw.advance_advancesBy, clearAndRaise_advance_onlyChanges s, poll_true_then_false hredraw⟩

end Sys2Proof.Machine
end

section
/-!
Decoding and encoding (spec/30_encoding.md): the decoder on every word the encoder writes, the word put together again
from what it decodes to, the rows of the opcode map, and the proofs that settle their obligations.
-/

namespace Sys2Proof.Machine

/-! ### The decoder on the encoder's words -/

theorem decode_ret : decode 0x00EE = .ok .ret := by decide

theorem decode_call (nnn : Addr) : decode (formAddr 0x2#4 nnn) = .ok (.call nnn) := by
  simp [decode]

theorem decode_addReg (x y : Reg) : decode (formRegReg 0x8#4 x y 0x4#4) = .ok (.addReg x y) := by
  simp [decode_family8, decodeFamily8]

theorem decode_sub (x y : Reg) : decode (formRegReg 0x8#4 x y 0x5#4) = .ok (.sub x y) := by
  simp [decode_family8, decodeFamily8]

theorem decode_shr (x y : Reg) : decode (formRegReg 0x8#4 x y 0x6#4) = .ok (.shr x y) := by
  simp [decode_family8, decodeFamily8]

theorem decode_subn (x y : Reg) : decode (formRegReg 0x8#4 x y 0x7#4) = .ok (.subn x y) := by
  simp [decode_family8, decodeFamily8]

theorem decode_shl (x y : Reg) : decode (formRegReg 0x8#4 x y 0xE#4) = .ok (.shl x y) := by
  simp [decode_family8, decodeFamily8]

theorem decode_rnd (x : Reg) (nn : Byte) : decode (formRegImm 0xC#4 x nn) = .ok (.rnd x nn) := by
  simp [decode]

theorem decode_drw (x y : Reg) (n : Nibble) : decode (formRegReg 0xD#4 x y n) = .ok (.drw x y n.toNat) := by
  simp [decode]

/-- A word with leading digit E is family E's to decode, by its low byte (30_encoding.md R64). -/
theorem decode_familyE (x : Reg) (nn : Byte) :
    decode (formRegImm 0xE#4 x nn) = decodeFamilyE (formRegImm 0xE#4 x nn) := by
  simp [decode]

theorem decode_skp (x : Reg) : decode (formRegImm 0xE#4 x 0x9E#8) = .ok (.skp x) := by
  simp [decode_familyE, decodeFamilyE]

theorem decode_sknp (x : Reg) : decode (formRegImm 0xE#4 x 0xA1#8) = .ok (.sknp x) := by
  simp [decode_familyE, decodeFamilyE]

/-- A word with leading digit F is family F's to decode, by its low byte (30_encoding.md R64). -/
theorem decode_familyF (x : Reg) (nn : Byte) :
    decode (formRegImm 0xF#4 x nn) = decodeFamilyF (formRegImm 0xF#4 x nn) := by
  simp [decode]

theorem decode_ldVxDt (x : Reg) : decode (formRegImm 0xF#4 x 0x07#8) = .ok (.ldVxDt x) := by
  simp [decode_familyF, decodeFamilyF]

theorem decode_ldVxK (x : Reg) : decode (formRegImm 0xF#4 x 0x0A#8) = .ok (.ldVxK x) := by
  simp [decode_familyF, decodeFamilyF]

theorem decode_ldDtVx (x : Reg) : decode (formRegImm 0xF#4 x 0x15#8) = .ok (.ldDtVx x) := by
  simp [decode_familyF, decodeFamilyF]

theorem decode_ldStVx (x : Reg) : decode (formRegImm 0xF#4 x 0x18#8) = .ok (.ldStVx x) := by
  simp [decode_familyF, decodeFamilyF]

theorem decode_addI (x : Reg) : decode (formRegImm 0xF#4 x 0x1E#8) = .ok (.addI x) := by
  simp [decode_familyF, decodeFamilyF]

theorem decode_ldB (x : Reg) : decode (formRegImm 0xF#4 x 0x33#8) = .ok (.ldB x) := by
  simp [decode_familyF, decodeFamilyF]

theorem decode_stRegs (x : Reg) : decode (formRegImm 0xF#4 x 0x55#8) = .ok (.stRegs x) := by
  simp [decode_familyF, decodeFamilyF]

theorem decode_ldRegs (x : Reg) : decode (formRegImm 0xF#4 x 0x65#8) = .ok (.ldRegs x) := by
  simp [decode_familyF, decodeFamilyF]

/-- Well-formedness enters at the row count of `DRW` alone: fifteen rows are the most that the field holds. -/
theorem decode_encode {i : Instr} (h : i.wellFormed = true) : decode (encode i) = .ok i := by
  cases i with
  | cls => exact decode_cls
  | ret => exact decode_ret
  | jp nnn => exact decode_jp nnn
  | call nnn => exact decode_call nnn
  | seImm x nn => exact decode_seImm x nn
  | sneImm x nn => exact decode_sneImm x nn
  | seReg x y => exact (decode_family5 x y 0).trans (if_pos rfl)
  | ldImm x nn => exact decode_ldImm x nn
  | addImm x nn => exact decode_addImm x nn
  | ldReg x y => exact decode_ldReg x y
  | orReg x y => exact decode_orReg x y
  | andReg x y => exact decode_andReg x y
  | xorReg x y => exact decode_xorReg x y
  | addReg x y => exact decode_addReg x y
  | sub x y => exact decode_sub x y
  | shr x y => exact decode_shr x y
  | subn x y => exact decode_subn x y
  | shl x y => exact decode_shl x y
  | sneReg x y => exact (decode_family9 x y 0).trans (if_pos rfl)
  | ldI nnn => exact decode_ldI nnn
  | jpV0 nnn => exact decode_jpV0 nnn
  | rnd x nn => exact decode_rnd x nn
  | drw x y n =>
    have hn : n < 16 := of_decide_eq_true h
    have hfield : (BitVec.ofNat 4 n).toNat = n := by rw [BitVec.toNat_ofNat, Nat.mod_eq_of_lt hn]
    rw [encode, decode_drw, hfield]
  | skp x => exact decode_skp x
  | sknp x => exact decode_sknp x
  | ldVxDt x => exact decode_ldVxDt x
  | ldVxK x => exact decode_ldVxK x
  | ldDtVx x => exact decode_ldDtVx x
  | ldStVx x => exact decode_ldStVx x
  | addI x => exact decode_addI x
  | ldF x => exact decode_ldF x
  | ldB x => exact decode_ldB x
  | stRegs x => exact decode_stRegs x
  | ldRegs x => exact decode_ldRegs x

/-- Settles O5: the decoder answers the instruction on the encoder's word, and the byte decoder puts that word together
from its two bytes. -/
theorem decodeOfEncode : Obligations.DecodeOfEncode := by
  intro i hi
  exact ⟨decode_encode hi, fun rest => decodeBytes_encodeBytes i i rest (decode_encode hi)⟩

/-! ### The word of a decoded instruction -/

section words

variable {w : Word} {op n : Nibble} {nn : Byte}

/-- A word with the opcode field `op` is that field and its `NNN`. -/
theorem formAddr_of_fieldOp (h : (fieldOp w).toNat = op.toNat) : formAddr op (fieldNNN w) = w := by
  rw [← BitVec.eq_of_toNat_eq h, formAddr_fields]

/-- A word with the opcode field `op` is that field, its `X` and its `NN`. -/
theorem formRegImm_of_fieldOp (h : (fieldOp w).toNat = op.toNat) : formRegImm op (fieldX w) (fieldNN w) = w := by
  rw [← BitVec.eq_of_toNat_eq h, formRegImm_fields]

/-- A word with the opcode field `op` and the low byte `nn` is those and its `X`. -/
theorem formRegImm_of_fieldNN (h : (fieldOp w).toNat = op.toNat) (hnn : (fieldNN w).toNat = nn.toNat) :
    formRegImm op (fieldX w) nn = w := by
  rw [← BitVec.eq_of_toNat_eq hnn, formRegImm_of_fieldOp h]

/-- A word with the opcode field `op` and the low nibble `n` is those, its `X` and its `Y`. -/
theorem formRegReg_of_fieldN (h : (fieldOp w).toNat = op.toNat) (hn : (fieldN w).toNat = n.toNat) :
    formRegReg op (fieldX w) (fieldY w) n = w := by
  rw [← BitVec.eq_of_toNat_eq h, ← BitVec.eq_of_toNat_eq hn, formRegReg_fields]

end words

/-- The instruction is one that the encoder writes as `w`. -/
def Encodes (i : Instr) (w : Word) : Prop := encode i = w ∧ i.wellFormed = true

theorem encodes_of_decodeFamily0 {w : Word} {i : Instr} (h : decodeFamily0 w = .ok i) : Encodes i w := by
  unfold decodeFamily0 at h
  split at h
  · next hw => cases h; exact ⟨hw.symm, rfl⟩
  · split at h
    · next hw => cases h; exact ⟨hw.symm, rfl⟩
    · cases h

theorem encodes_of_decodeFamily8 {w : Word} {i : Instr} (hop : (fieldOp w).toNat = 0x8)
    (h : decodeFamily8 w = .ok i) : Encodes i w := by
  unfold decodeFamily8 at h
  simp only at h
  split at h <;> cases h
  all_goals exact ⟨formRegReg_of_fieldN hop ‹_›, rfl⟩

theorem encodes_of_decodeFamilyE {w : Word} {i : Instr} (hop : (fieldOp w).toNat = 0xE)
    (h : decodeFamilyE w = .ok i) : Encodes i w := by
  unfold decodeFamilyE at h
  split at h <;> cases h
  all_goals exact ⟨formRegImm_of_fieldNN hop ‹_›, rfl⟩

theorem encodes_of_decodeFamilyF {w : Word} {i : Instr} (hop : (fieldOp w).toNat = 0xF)
    (h : decodeFamilyF w = .ok i) : Encodes i w := by
  unfold decodeFamilyF at h
  simp only at h
  split at h <;> cases h
  all_goals exact ⟨formRegImm_of_fieldNN hop ‹_›, rfl⟩

/-- The fields that the decoder reads are all the bits of the word, so the encoder gives the word back
(30_encoding.md R62, R64). -/
theorem encodes_of_decode {w : Word} {i : Instr} (h : decode w = .ok i) : Encodes i w := by
  unfold decode at h
  simp only at h
  split at h
  case h_1 => exact encodes_of_decodeFamily0 h
  case h_2 hop => cases h; exact ⟨formAddr_of_fieldOp hop, rfl⟩
  case h_3 hop => cases h; exact ⟨formAddr_of_fieldOp hop, rfl⟩
  case h_4 hop => cases h; exact ⟨formRegImm_of_fieldOp hop, rfl⟩
  case h_5 hop => cases h; exact ⟨formRegImm_of_fieldOp hop, rfl⟩
  case h_6 hop =>
    split at h
    · next hn => cases h; exact ⟨formRegReg_of_fieldN hop (congrArg BitVec.toNat hn), rfl⟩
    · cases h
  case h_7 hop => cases h; exact ⟨formRegImm_of_fieldOp hop, rfl⟩
  case h_8 hop => cases h; exact ⟨formRegImm_of_fieldOp hop, rfl⟩
  case h_9 hop => exact encodes_of_decodeFamily8 hop h
  case h_10 hop =>
    split at h
    · next hn => cases h; exact ⟨formRegReg_of_fieldN hop (congrArg BitVec.toNat hn), rfl⟩
    · cases h
  case h_11 hop => cases h; exact ⟨formAddr_of_fieldOp hop, rfl⟩
  case h_12 hop => cases h; exact ⟨formAddr_of_fieldOp hop, rfl⟩
  case h_13 hop => cases h; exact ⟨formRegImm_of_fieldOp hop, rfl⟩
  case h_14 hop =>
    cases h
    refine ⟨?_, decide_eq_true (fieldN w).isLt⟩
    rw [encode, BitVec.ofNat_toNat, BitVec.setWidth_eq]
    exact formRegReg_of_fieldN hop rfl
  case h_15 hop => exact encodes_of_decodeFamilyE hop h
  case h_16 =>
    have hlt : (fieldOp w).toNat < 16 := (fieldOp w).isLt
    have hop : (fieldOp w).toNat = 0xF := by grind
    exact encodes_of_decodeFamilyF hop h

/-- Settles O6: every family's decoder keeps the fields of its word. -/
theorem encodeOfDecode : Obligations.EncodeOfDecode :=
  fun _ _ h => encodes_of_decode h

theorem encode_of_decode {w : Word} {i : Instr} (h : decode w = .ok i) : encode i = w := (encodes_of_decode h).1

end Sys2Proof.Machine
end

section
/-!
The opcode map (spec/30_encoding.md R66): which words a row of each mask selects, that the decoder answers the selected
row's instruction, and the proofs that settle the decoder's obligations.
-/

namespace Sys2Proof.Machine

/-! ### The row of a decoded instruction -/

/-- Every instruction's word selects the instruction's own row. -/
theorem encodedRow (i : Instr) : Laws.EncodedRow.Statement i := by
  cases i with
  | cls => exact Laws.EncodedRow.cls
  | ret => exact Laws.EncodedRow.ret
  | jp nnn => exact Laws.EncodedRow.jp nnn
  | call nnn => exact Laws.EncodedRow.call nnn
  | seImm x nn => exact Laws.EncodedRow.seImm x nn
  | sneImm x nn => exact Laws.EncodedRow.sneImm x nn
  | seReg x y => exact Laws.EncodedRow.seReg x y
  | ldImm x nn => exact Laws.EncodedRow.ldImm x nn
  | addImm x nn => exact Laws.EncodedRow.addImm x nn
  | ldReg x y => exact Laws.EncodedRow.ldReg x y
  | orReg x y => exact Laws.EncodedRow.orReg x y
  | andReg x y => exact Laws.EncodedRow.andReg x y
  | xorReg x y => exact Laws.EncodedRow.xorReg x y
  | addReg x y => exact Laws.EncodedRow.addReg x y
  | sub x y => exact Laws.EncodedRow.sub x y
  | shr x y => exact Laws.EncodedRow.shr x y
  | subn x y => exact Laws.EncodedRow.subn x y
  | shl x y => exact Laws.EncodedRow.shl x y
  | sneReg x y => exact Laws.EncodedRow.sneReg x y
  | ldI nnn => exact Laws.EncodedRow.ldI nnn
  | jpV0 nnn => exact Laws.EncodedRow.jpV0 nnn
  | rnd x nn => exact Laws.EncodedRow.rnd x nn
  | drw x y n => exact Laws.EncodedRow.drw x y n
  | skp x => exact Laws.EncodedRow.skp x
  | sknp x => exact Laws.EncodedRow.sknp x
  | ldVxDt x => exact Laws.EncodedRow.ldVxDt x
  | ldVxK x => exact Laws.EncodedRow.ldVxK x
  | ldDtVx x => exact Laws.EncodedRow.ldDtVx x
  | ldStVx x => exact Laws.EncodedRow.ldStVx x
  | addI x => exact Laws.EncodedRow.addI x
  | ldF x => exact Laws.EncodedRow.ldF x
  | ldB x => exact Laws.EncodedRow.ldB x
  | stRegs x => exact Laws.EncodedRow.stRegs x
  | ldRegs x => exact Laws.EncodedRow.ldRegs x

theorem row_of_decode {w : Word} {i : Instr} (h : decode w = .ok i) :
    ∃ r, opcodeMap[rowIndex i]? = some r ∧ w &&& r.mask = r.pattern := by
  have hrow := encodedRow i
  rw [Laws.EncodedRow.Statement, encode_of_decode h, Option.any_eq_true] at hrow
  obtain ⟨r, hr, hw⟩ := hrow
  exact ⟨r, hr, eq_of_beq hw⟩

/-! ### The instruction of a selected row -/

/-- A word that selects the row decodes to an instruction of that row. -/
def RowDecodes (w : Word) (r : OpcodeRow) : Prop :=
  w &&& r.mask = r.pattern → ∃ i, decode w = .ok i ∧ opcodeMap[rowIndex i]? = some r

section rows

variable {w : Word} {mn : String} {op n : Nibble} {nn : Byte}

/-- A mask that keeps the opcode field fixes that field of the words it selects. -/
theorem fieldOp_of_and {m p : Word} (hm : fieldOp m = 0xF#4) (h : w &&& m = p) : fieldOp w = fieldOp p := by
  rw [← h, fieldOp_and, hm]
  exact BitVec.and_allOnes.symm

/-- A mask that keeps the low nibble fixes it in the words it selects. -/
theorem fieldN_of_and {m p : Word} (hm : fieldN m = 0xF#4) (h : w &&& m = p) : fieldN w = fieldN p := by
  rw [← h, fieldN_and, hm]
  exact BitVec.and_allOnes.symm

/-- A mask that keeps the low byte fixes it in the words it selects. -/
theorem fieldNN_of_and {m p : Word} (hm : fieldNN m = 0xFF#8) (h : w &&& m = p) : fieldNN w = fieldNN p := by
  rw [← h, fieldNN_and, hm]
  exact BitVec.and_allOnes.symm

/-- A row that names the whole word. -/
theorem rowDecodes_word {p : Word} {i : Instr} (hd : decode p = .ok i)
    (hr : opcodeMap[rowIndex i]? = some ⟨mn, p, 0xFFFF#16⟩) : RowDecodes w ⟨mn, p, 0xFFFF#16⟩ := by
  intro h
  have hw : w = p := BitVec.and_allOnes.symm.trans h
  exact ⟨i, hw ▸ hd, hr⟩

/-- A row that names the opcode field of format ADDR. -/
theorem rowDecodes_addr {mk : Addr → Instr} (hd : ∀ nnn, decode (formAddr op nnn) = .ok (mk nnn))
    (hr : ∀ nnn, opcodeMap[rowIndex (mk nnn)]? = some ⟨mn, formAddr op 0, 0xF000#16⟩) :
    RowDecodes w ⟨mn, formAddr op 0, 0xF000#16⟩ := by
  intro (h : w &&& 0xF000#16 = formAddr op 0)
  have hop : fieldOp w = op := (fieldOp_of_and (by decide) h).trans (formAddr_fieldOp op 0)
  refine ⟨mk (fieldNNN w), ?_, hr _⟩
  rw [← hd, formAddr_of_fieldOp (congrArg BitVec.toNat hop)]

/-- A row that names the opcode field of format REG_IMM. -/
theorem rowDecodes_regImm {mk : Reg → Byte → Instr} (hd : ∀ x nn, decode (formRegImm op x nn) = .ok (mk x nn))
    (hr : ∀ x nn, opcodeMap[rowIndex (mk x nn)]? = some ⟨mn, formAddr op 0, 0xF000#16⟩) :
    RowDecodes w ⟨mn, formAddr op 0, 0xF000#16⟩ := by
  intro (h : w &&& 0xF000#16 = formAddr op 0)
  have hop : fieldOp w = op := (fieldOp_of_and (by decide) h).trans (formAddr_fieldOp op 0)
  refine ⟨mk (fieldX w) (fieldNN w), ?_, hr _ _⟩
  rw [← hd, formRegImm_of_fieldOp (congrArg BitVec.toNat hop)]

/-- A row that names the opcode field of format REG_REG_N. -/
theorem rowDecodes_regRegN {mk : Reg → Reg → Nibble → Instr}
    (hd : ∀ x y n, decode (formRegReg op x y n) = .ok (mk x y n))
    (hr : ∀ x y n, opcodeMap[rowIndex (mk x y n)]? = some ⟨mn, formAddr op 0, 0xF000#16⟩) :
    RowDecodes w ⟨mn, formAddr op 0, 0xF000#16⟩ := by
  intro (h : w &&& 0xF000#16 = formAddr op 0)
  have hop : fieldOp w = op := (fieldOp_of_and (by decide) h).trans (formAddr_fieldOp op 0)
  refine ⟨mk (fieldX w) (fieldY w) (fieldN w), ?_, hr _ _ _⟩
  rw [← hd, formRegReg_of_fieldN (congrArg BitVec.toNat hop) rfl]

/-- A row that names the opcode field and the low nibble of format REG_REG. -/
theorem rowDecodes_regReg {mk : Reg → Reg → Instr} (hd : ∀ x y, decode (formRegReg op x y n) = .ok (mk x y))
    (hr : ∀ x y, opcodeMap[rowIndex (mk x y)]? = some ⟨mn, formRegReg op 0 0 n, 0xF00F#16⟩) :
    RowDecodes w ⟨mn, formRegReg op 0 0 n, 0xF00F#16⟩ := by
  intro (h : w &&& 0xF00F#16 = formRegReg op 0 0 n)
  have hop : fieldOp w = op := (fieldOp_of_and (by decide) h).trans (formRegReg_fieldOp op n 0 0)
  have hn : fieldN w = n := (fieldN_of_and (by decide) h).trans (formRegReg_fieldN op n 0 0)
  refine ⟨mk (fieldX w) (fieldY w), ?_, hr _ _⟩
  rw [← hd, formRegReg_of_fieldN (congrArg BitVec.toNat hop) (congrArg BitVec.toNat hn)]

/-- A row that names the opcode field and the low byte of format REG_IMM. -/
theorem rowDecodes_reg {mk : Reg → Instr} (hd : ∀ x, decode (formRegImm op x nn) = .ok (mk x))
    (hr : ∀ x, opcodeMap[rowIndex (mk x)]? = some ⟨mn, formRegImm op 0 nn, 0xF0FF#16⟩) :
    RowDecodes w ⟨mn, formRegImm op 0 nn, 0xF0FF#16⟩ := by
  intro (h : w &&& 0xF0FF#16 = formRegImm op 0 nn)
  have hop : fieldOp w = op := (fieldOp_of_and (by decide) h).trans (formRegImm_fieldOp op 0 nn)
  have hnn : fieldNN w = nn := (fieldNN_of_and (by decide) h).trans (formRegImm_fieldNN op 0 nn)
  refine ⟨mk (fieldX w), ?_, hr _⟩
  rw [← hd, formRegImm_of_fieldNN (congrArg BitVec.toNat hop) (congrArg BitVec.toNat hnn)]

end rows

/-- Rows 1 to 19 of the opcode map, in its order. -/
theorem rowDecodes_low (w : Word) : ∀ r ∈ opcodeMapLow, RowDecodes w r := by
  simp only [opcodeMapLow, List.forall_mem_cons]
  exact ⟨rowDecodes_word decode_cls rfl, rowDecodes_word decode_ret rfl,
    rowDecodes_addr decode_jp fun _ => rfl, rowDecodes_addr decode_call fun _ => rfl,
    rowDecodes_regImm decode_seImm fun _ _ => rfl, rowDecodes_regImm decode_sneImm fun _ _ => rfl,
    rowDecodes_regReg (fun x y => (decode_family5 x y 0).trans (if_pos rfl)) fun _ _ => rfl,
    rowDecodes_regImm decode_ldImm fun _ _ => rfl, rowDecodes_regImm decode_addImm fun _ _ => rfl,
    rowDecodes_regReg decode_ldReg fun _ _ => rfl, rowDecodes_regReg decode_orReg fun _ _ => rfl,
    rowDecodes_regReg decode_andReg fun _ _ => rfl, rowDecodes_regReg decode_xorReg fun _ _ => rfl,
    rowDecodes_regReg decode_addReg fun _ _ => rfl, rowDecodes_regReg decode_sub fun _ _ => rfl,
    rowDecodes_regReg decode_shr fun _ _ => rfl, rowDecodes_regReg decode_subn fun _ _ => rfl,
    rowDecodes_regReg decode_shl fun _ _ => rfl,
    rowDecodes_regReg (fun x y => (decode_family9 x y 0).trans (if_pos rfl)) fun _ _ => rfl,
    fun _ hr => absurd hr List.not_mem_nil⟩

/-- Rows 20 to 34 of the opcode map, in its order. -/
theorem rowDecodes_high (w : Word) : ∀ r ∈ opcodeMapHigh, RowDecodes w r := by
  simp only [opcodeMapHigh, List.forall_mem_cons]
  exact ⟨rowDecodes_addr decode_ldI fun _ => rfl, rowDecodes_addr decode_jpV0 fun _ => rfl,
    rowDecodes_regImm decode_rnd fun _ _ => rfl, rowDecodes_regRegN decode_drw fun _ _ _ => rfl,
    rowDecodes_reg decode_skp fun _ => rfl, rowDecodes_reg decode_sknp fun _ => rfl,
    rowDecodes_reg decode_ldVxDt fun _ => rfl, rowDecodes_reg decode_ldVxK fun _ => rfl,
    rowDecodes_reg decode_ldDtVx fun _ => rfl, rowDecodes_reg decode_ldStVx fun _ => rfl,
    rowDecodes_reg decode_addI fun _ => rfl, rowDecodes_reg decode_ldF fun _ => rfl,
    rowDecodes_reg decode_ldB fun _ => rfl, rowDecodes_reg decode_stRegs fun _ => rfl,
    rowDecodes_reg decode_ldRegs fun _ => rfl, fun _ hr => absurd hr List.not_mem_nil⟩

theorem decode_of_row {w : Word} {r : OpcodeRow} (hr : r ∈ opcodeMap) (hw : w &&& r.mask = r.pattern) :
    ∃ i, decode w = .ok i ∧ opcodeMap[rowIndex i]? = some r :=
  (List.mem_append.mp hr).elim (fun hlow => rowDecodes_low w r hlow hw) fun hhigh => rowDecodes_high w r hhigh hw

/-- Two rows that a word selects are both the row of the instruction it decodes to. -/
theorem row_unique {w : Word} {r q : OpcodeRow} (hr : r ∈ opcodeMap) (hq : q ∈ opcodeMap)
    (hrw : w &&& r.mask = r.pattern) (hqw : w &&& q.mask = q.pattern) : r = q := by
  obtain ⟨i, hi, hri⟩ := decode_of_row hr hrw
  obtain ⟨j, hj, hqj⟩ := decode_of_row hq hqw
  obtain rfl : i = j := Except.ok.inj (hi.symm.trans hj)
  exact Option.some.inj (hri.symm.trans hqj)

/-- Settles O7: a decoded word selects the row of its instruction, a selected row decodes to an instruction of that row,
and both together leave no word a second row. -/
theorem decoderFollowsOpcodeMap : Obligations.DecoderFollowsOpcodeMap := by
  intro w
  refine ⟨fun i => row_of_decode, ⟨?_, ?_⟩, fun e => decode_error, fun r hr q hq => row_unique hr hq⟩
  · rintro ⟨i, hi⟩
    obtain ⟨r, hr, hw⟩ := row_of_decode hi
    exact ⟨r, List.mem_of_getElem? hr, hw⟩
  · rintro ⟨r, hr, hw⟩
    obtain ⟨i, hi, -⟩ := decode_of_row hr hw
    exact ⟨i, hi⟩

/-- Settles O8: the seventeen words are closed terms, read by the decoder. -/
theorem sampleWordsDecode : Obligations.SampleWordsDecode := by
  unfold Obligations.SampleWordsDecode
  decide

end Sys2Proof.Machine
end

section
/-!
Frames: what the single writes of the machine leave unchanged, and the frame of writes made one after another, so that
the frame of an instruction is put together from its writes (spec/10_state.md R31).
-/

namespace Sys2Proof.Machine

/-! ### The pieces of state that a write leaves unchanged -/

section parts

variable {s t : State} {ps : List Part}

/-- A frame, part by part. The parts that a caller does not name are the same by definition. -/
theorem onlyChanges_of_parts
    (config : .config ∉ ps → Part.config.same s t := by exact fun _ => rfl)
    (v : .v ∉ ps → Part.v.same s t := by exact fun _ _ => rfl)
    (i : .i ∉ ps → Part.i.same s t := by exact fun _ => rfl)
    (pc : .pc ∉ ps → Part.pc.same s t := by exact fun _ => rfl)
    (stack : .stack ∉ ps → Part.stack.same s t := by exact fun _ => rfl)
    (sp : .sp ∉ ps → Part.sp.same s t := by exact fun _ => rfl)
    (dt : .dt ∉ ps → Part.dt.same s t := by exact fun _ => rfl)
    (st : .st ∉ ps → Part.st.same s t := by exact fun _ => rfl)
    (memory : .memory ∉ ps → Part.memory.same s t := by exact fun _ _ => rfl)
    (display : .display ∉ ps → Part.display.same s t := by exact fun _ _ _ => rfl)
    (key : .key ∉ ps → Part.key.same s t := by exact fun _ _ => rfl)
    (redraw : .redraw ∉ ps → Part.redraw.same s t := by exact fun _ => rfl)
    (fault : .fault ∉ ps → Part.fault.same s t := by exact fun _ => rfl)
    (randDraws : .randDraws ∉ ps → Part.randDraws.same s t := by exact fun _ => rfl) :
    OnlyChanges ps s t := by
  intro p hp
  cases p with
  | config => exact config hp
  | v => exact v hp
  | i => exact i hp
  | pc => exact pc hp
  | stack => exact stack hp
  | sp => exact sp hp
  | dt => exact dt hp
  | st => exact st hp
  | memory => exact memory hp
  | display => exact display hp
  | key => exact key hp
  | redraw => exact redraw hp
  | fault => exact fault hp
  | randDraws => exact randDraws hp

/-- A part that the frame names may change in any way. -/
theorem same_of_named {p : Part} (h : p ∉ [p]) : p.same s t := absurd List.mem_cons_self h

end parts

section writes

variable (s : State)

theorem OnlyChanges.refl : OnlyChanges [] s s := onlyChanges_of_parts

theorem State.setDt_onlyChanges (b : Byte) : OnlyChanges [.dt] s (s.setDt b) :=
  onlyChanges_of_parts (dt := same_of_named)

theorem State.setSt_onlyChanges (b : Byte) : OnlyChanges [.st] s (s.setSt b) :=
  onlyChanges_of_parts (st := same_of_named)

theorem State.drawRandom_onlyChanges : OnlyChanges [.randDraws] s s.drawRandom.2 :=
  onlyChanges_of_parts (randDraws := same_of_named)

theorem onlyChanges_memory (m : Memory) : OnlyChanges [.memory] s { s with memory := m } :=
  onlyChanges_of_parts (memory := same_of_named)

theorem copyBytes_onlyChanges (a : Nat) (bs : List Byte) : OnlyChanges [.memory] s (copyBytes a bs s) := by
  obtain ⟨m, hm⟩ := copyBytes_onlyMemory a bs s
  rw [hm]
  exact onlyChanges_memory s m

theorem onlyChanges_v (v : Vector Byte 16) : OnlyChanges [.v] s { s with v := v } :=
  onlyChanges_of_parts (v := same_of_named)

theorem onlyChanges_display (d : Vector (Vector Bool 64) 32) : OnlyChanges [.display] s { s with display := d } :=
  onlyChanges_of_parts (display := same_of_named)

theorem onlyChanges_stack (l : List Word) : OnlyChanges [.stack] s { s with stack := l } :=
  onlyChanges_of_parts (stack := same_of_named)

theorem onlyChanges_sp (n : Nat) : OnlyChanges [.sp] s { s with sp := n } :=
  onlyChanges_of_parts (sp := same_of_named)

theorem onlyChanges_key (k : Vector Bool 16) : OnlyChanges [.key] s { s with key := k } :=
  onlyChanges_of_parts (key := same_of_named)

theorem pollAndClearRedraw_onlyChanges : OnlyChanges [.redraw] s (pollAndClearRedraw s).2 :=
  onlyChanges_of_parts (redraw := same_of_named)

/-- The tick is one write of each timer. -/
theorem tick_onlyChanges : OnlyChanges [.dt, .st] s (tick s) :=
  (s.setDt_onlyChanges (countDown s.dt)).trans' ((s.setDt (countDown s.dt)).setSt_onlyChanges (countDown s.st))

end writes

/-! ### The frame of a sequence of writes -/

variable {s t u : State}

/-- From `s` to `t` only the named pieces of state and the named registers change, and memory keeps its canonical form,
which a reader of memory cannot see. -/
structure Frame (ps : List Part) (rs : List Reg) (s t : State) : Prop where
  parts : OnlyChanges ps s t
  regs : RegsSameBut rs s t
  canonical : Memory.wf s.config s.memory = true → Memory.wf t.config t.memory = true

theorem Frame.refl (s : State) : Frame [] [] s s := ⟨OnlyChanges.refl s, fun _ _ => rfl, id⟩

theorem Frame.trans {ps qs : List Part} {rs ks : List Reg} (h : Frame ps rs s t) (k : Frame qs ks t u) :
    Frame (ps ++ qs) (rs ++ ks) s u := by
  refine ⟨h.parts.trans' k.parts, fun r hr => ?_, k.canonical ∘ h.canonical⟩
  rw [List.mem_append, not_or] at hr
  exact (k.regs r hr.2).trans (h.regs r hr.1)

theorem Frame.mono {ps qs : List Part} {rs ks : List Reg} (h : Frame ps rs s t) (hps : ∀ p ∈ ps, p ∈ qs)
    (hrs : ∀ r ∈ rs, r ∈ ks) : Frame qs ks s t :=
  ⟨h.parts.mono hps, fun r hr => h.regs r fun hr' => hr (hrs r hr'), h.canonical⟩

section frames

variable (s : State)

theorem frame_setV (r : Reg) (b : Byte) : Frame [.v] [r] s (s.setV r b) :=
  ⟨s.setV_onlyChanges r b, s.setV_regsSameBut r b, id⟩

theorem frame_setFlag (f : Byte) : Frame [.v] [15] s (s.setFlag f) := frame_setV s flagReg f

theorem frame_setPc (w : Word) : Frame [.pc] [] s (s.setPc w) := ⟨s.setPc_onlyChanges w, fun _ _ => rfl, id⟩

theorem frame_advance : Frame [.pc] [] s s.advance := frame_setPc s _

theorem frame_setI (w : Word) : Frame [.i] [] s (s.setI w) := ⟨s.setI_onlyChanges w, fun _ _ => rfl, id⟩

theorem frame_setDt (b : Byte) : Frame [.dt] [] s (s.setDt b) := ⟨s.setDt_onlyChanges b, fun _ _ => rfl, id⟩

theorem frame_setSt (b : Byte) : Frame [.st] [] s (s.setSt b) := ⟨s.setSt_onlyChanges b, fun _ _ => rfl, id⟩

theorem frame_drawRandom : Frame [.randDraws] [] s s.drawRandom.2 := ⟨s.drawRandom_onlyChanges, fun _ _ => rfl, id⟩

theorem frame_clearDisplay : Frame [.display] [] s s.clearDisplay :=
  ⟨s.clearDisplay_onlyChanges, fun _ _ => rfl, id⟩

theorem frame_raiseRedraw : Frame [.redraw] [] s s.raiseRedraw := ⟨s.raiseRedraw_onlyChanges, fun _ _ => rfl, id⟩

theorem frame_sp (n : Nat) : Frame [.sp] [] s { s with sp := n } := ⟨onlyChanges_sp s n, fun _ _ => rfl, id⟩

theorem frame_stack (l : List Word) : Frame [.stack] [] s { s with stack := l } :=
  ⟨onlyChanges_stack s l, fun _ _ => rfl, id⟩

/-- A copy that stays inside memory keeps the canonical form. -/
theorem frame_copyBytes (a : Nat) (bs : List Byte) (h : a + bs.length ≤ s.config.ramSize) :
    Frame [.memory] [] s (copyBytes a bs s) :=
  ⟨copyBytes_onlyChanges s a bs, fun r _ => copyBytes_onlyChanges s a bs .v (by simp) r, copyBytes_wf a bs s h⟩

end frames

/-! ### The writes of one instruction -/

section sequences

variable (s : State) (x : Reg) (f b : Byte) (w : Word)

theorem frame_setV_advance : Frame [.pc, .v] [x] s (s.setV x b).advance :=
  ((frame_setV s x b).trans (frame_advance _)).mono (by simp) (by simp)

/-- The flag, then the result (43_alu.md R121). -/
theorem frame_setFlag_setV_advance : Frame [.pc, .v] [x, 15] s ((s.setFlag f).setV x b).advance :=
  ((frame_setFlag s f).trans (frame_setV_advance (s.setFlag f) x b)).mono (by simp) (by simp)

/-- The flag, then the index (44_index_memory.md R141). -/
theorem frame_setFlag_setI_advance : Frame [.pc, .v, .i] [15] s ((s.setFlag f).setI w).advance :=
  (((frame_setFlag s f).trans (frame_setI (s.setFlag f) w)).trans (frame_advance _)).mono (by simp) (by simp)

/-- The draw of the random byte, then the result (43_alu.md R134). -/
theorem frame_drawRandom_setV_advance :
    Frame [.pc, .v, .randDraws] [x] s ((s.drawRandom.2).setV x b).advance :=
  ((frame_drawRandom s).trans (frame_setV_advance s.drawRandom.2 x b)).mono (by simp) (by simp)

end sequences

/-- Drawing changes the display and `VF`. -/
theorem OnlyDraws.frame (h : OnlyDraws s t) : Frame [.v, .display] [15] s t := by
  refine ⟨?_, fun r hr => h.regs r (List.ne_of_not_mem_cons hr), ?_⟩
  · rw [h.parts]
    exact (onlyChanges_v s t.v).trans' (onlyChanges_display _ t.display)
  · rw [h.parts]
    exact id

end Sys2Proof.Machine
end

section
/-!
Timers, keys and the random byte (spec/46_timer_key.md, 42_skip.md section 2, 43_alu.md section 6): the execute phases
in closed form, and the proofs that settle their obligations.
-/

namespace Sys2Proof.Machine

variable {s : State} {x k : Reg}

/-! ### The tick -/

theorem tickSound_iff (s : State) : tickSound s = true ↔ s.st.toNat = 1 :=
  beq_iff_eq.trans ⟨congrArg BitVec.toNat, BitVec.eq_of_toNat_eq (y := 1#8)⟩

/-- Settles O16: the tick is one count-down of each timer. -/
theorem tickDecrementsNonzeroTimers : Obligations.TickDecrementsNonzeroTimers :=
  fun s => ⟨countDown_toNat s.dt, countDown_toNat s.st, tick_onlyChanges s, tickSound_iff s⟩

/-! ### The timer instructions -/

theorem exec_ldVxDt (x : Reg) (s : State) : exec (.ldVxDt x) s = .next (s.setV x s.dt).advance := rfl

theorem exec_ldDtVx (x : Reg) (s : State) : exec (.ldDtVx x) s = .next (s.setDt (s.getV x)).advance := rfl

theorem exec_ldStVx (x : Reg) (s : State) : exec (.ldStVx x) s = .next (s.setSt (s.getV x)).advance := rfl

/-- Settles O43: each instruction is one write and an advance, and the tick after it counts the written timer down. -/
theorem timerAccessReadsAndSets : Obligations.TimerAccessReadsAndSets := by
  intro s x
  refine ⟨⟨decode_ldVxDt x, writesReg_of_exec_setV (exec_ldVxDt x s) rfl⟩,
    ⟨decode_ldDtVx x, _, exec_ldDtVx x s, rfl, countDown_toNat _, State.advance_advancesBy _, ?_⟩,
    decode_ldStVx x, _, exec_ldStVx x s, rfl, countDown_toNat _, tickSound_iff _, State.advance_advancesBy _, ?_⟩
  · exact (s.setDt_onlyChanges _).trans' (State.setPc_onlyChanges _ _)
  · exact (s.setSt_onlyChanges _).trans' (State.setPc_onlyChanges _ _)

/-! ### The random byte -/

theorem exec_rnd (x : Reg) (nn : Byte) (s : State) :
    exec (.rnd x nn) s = .next ((s.drawRandom.2).setV x (s.drawRandom.1 &&& nn)).advance := rfl

/-- Settles O24: the drawn byte passes through the mask into `V[X]`, and the draw is counted. -/
theorem randomByteIsMasked : Obligations.RandomByteIsMasked := by
  intro s x nn
  have hx : ((s.drawRandom.2).setV x (s.drawRandom.1 &&& nn)).advance.getV x = Config.randByte s.randDraws &&& nn :=
    State.setV_getV_self _ x _
  have hframe := frame_drawRandom_setV_advance s x (s.drawRandom.1 &&& nn)
  refine ⟨_, exec_rnd x nn s, hx, fun k hk => ?_, rfl, hframe.regs, State.advance_advancesBy _,
    hframe.parts.mono (by simp)⟩
  rw [hx, BitVec.getLsbD_and, hk, Bool.and_false]

/-! ### The key skips -/

theorem exec_skp (hk : (s.getV x).toNat = k.val) : exec (.skp x) s = .next (s.skipIf (s.keyAt k)) := by
  simp only [exec, execSkp, hk, keyRead_inRange, complete_ok]

theorem exec_sknp (hk : (s.getV x).toNat = k.val) : exec (.sknp x) s = .next (s.skipIf (!s.keyAt k)) := by
  simp only [exec, execSknp, hk, keyRead_inRange, complete_ok]

theorem raises_skp (h : 16 ≤ (s.getV x).toNat) : Raises (.skp x) s (.keyIndexFault (s.getV x).toNat) := by
  simp only [Raises, exec, execSkp, keyRead_outOfRange h, complete_error, raiseFault]

theorem raises_sknp (h : 16 ≤ (s.getV x).toNat) : Raises (.sknp x) s (.keyIndexFault (s.getV x).toNat) := by
  simp only [Raises, exec, execSknp, keyRead_outOfRange h, complete_error, raiseFault]

/-- Settles O26: an index of a key reads the latch, which decides the skip, and any other index is rejected. -/
theorem keySkipsFollowLatchOrFault : Obligations.KeySkipsFollowLatchOrFault := by
  intro s x
  refine ⟨fun k hk => ⟨?_, ?_⟩, fun h => ⟨raises_skp h, raises_sknp h⟩⟩
  · exact skipsIf_of_exec_skipIf (exec_skp hk) Iff.rfl
  · exact skipsIf_of_exec_skipIf (exec_sknp hk) (by simp)

/-! ### The key wait -/

theorem exec_ldVxK_pressed (h : pressedKey s = some k) :
    exec (.ldVxK x) s = .next (s.setV x (BitVec.ofNat 8 k.val)).advance := by
  simp only [exec, execLdVxK, h, complete_ok]

theorem exec_ldVxK_blocked (h : pressedKey s = none) : exec (.ldVxK x) s = .next s := by
  simp only [exec, execLdVxK, h, complete_ok]

theorem executeStatus_ldVxK_pressed (h : pressedKey s = some k) : executeStatus (.ldVxK x) s = .advanced := by
  simp [executeStatus, h]

theorem executeStatus_ldVxK_blocked (h : pressedKey s = none) : executeStatus (.ldVxK x) s = .blocked := by
  simp [executeStatus, h]

theorem keyByte_toNat (k : Reg) : (BitVec.ofNat 8 k.val).toNat = k.val := by
  rw [BitVec.toNat_ofNat, Nat.mod_eq_of_lt (by omega)]

/-- Settles O44: the scan answers the highest pressed key, or none. -/
theorem keyWaitTakesHighestKeyOrBlocks : Obligations.KeyWaitTakesHighestKeyOrBlocks := by
  intro s x
  refine ⟨decode_ldVxK x, fun k hk hmax => ?_, fun hnone => ?_⟩
  · have hp := pressedKey_highest s k hk hmax
    exact ⟨writesReg_of_exec_setV (exec_ldVxK_pressed hp) (keyByte_toNat k), executeStatus_ldVxK_pressed hp⟩
  · have hp := pressedKey_none s hnone
    exact ⟨exec_ldVxK_blocked hp, executeStatus_ldVxK_blocked hp⟩

end Sys2Proof.Machine
end

section
/-!
The flag arithmetic and `FX1E` (spec/43_alu.md sections 4 and 5, 44_index_memory.md section 2): the flag is written
first and the result is computed from the registers as they are then, and the proofs that settle their obligations.
-/

namespace Sys2Proof.Machine

/-! ### The flag, then the result -/

/-- After the flag's write an operand that is `VF` reads as the flag. -/
theorem State.setFlag_getV_toNat (s : State) (r : Reg) (f : Byte) :
    ((s.setFlag f).getV r).toNat = if r = 15 then f.toNat else (s.getV r).toNat := by
  rw [State.setFlag_getV]
  split <;> rfl

/-- An instruction whose execute phase writes the flag and then one register has the flag in `VF`, unless that register
is `VF`, and the register's byte as its result. -/
theorem writesFlagAndReg_of_exec {i : Instr} {s : State} {x : Reg} {f b : Byte} {c n : Nat}
    (he : exec i s = .next ((s.setFlag f).setV x b).advance) (hf : f.toNat = c) (hb : b.toNat = n) :
    WritesFlagAndReg i s x c n := by
  subst hf hb
  have hframe := frame_setFlag_setV_advance s x f b
  refine ⟨_, he, fun hx => ?_, congrArg BitVec.toNat (State.setV_getV_self _ x b),
    hframe.regs, State.advance_advancesBy _, hframe.parts.mono (by simp)⟩
  exact congrArg BitVec.toNat ((State.setV_getV_ne _ hx.symm b).trans (State.setV_getV_self s flagReg f))

/-- Subtraction of bytes, as numbers (43_alu.md R129). -/
theorem byte_sub_toNat (a b : Byte) : (a - b).toNat = (a.toNat + 256 - b.toNat) % 256 := by
  rw [BitVec.toNat_sub]
  have hb : b.toNat < 256 := b.isLt
  omega

theorem byte_shr_toNat (a : Byte) : (a >>> 1).toNat = a.toNat / 2 := by
  rw [BitVec.toNat_ushiftRight, Nat.shiftRight_eq_div_pow]

theorem byte_shl_toNat (a : Byte) : (a <<< 1).toNat = a.toNat * 2 % 256 := by
  rw [BitVec.toNat_shiftLeft, Nat.shiftLeft_eq]

section arithmetic

variable (s : State) (x y : Reg)

theorem exec_addReg : exec (.addReg x y) s =
    let t := s.setFlag (carryFlag (s.getV x) (s.getV y))
    .next (t.setV x (t.getV x + t.getV y)).advance := rfl

theorem exec_sub : exec (.sub x y) s =
    let t := s.setFlag (noBorrowFlag (s.getV x) (s.getV y))
    .next (t.setV x (t.getV x - t.getV y)).advance := rfl

theorem exec_shr : exec (.shr x y) s =
    let t := s.setFlag (lowBitFlag (s.getV x))
    .next (t.setV x (t.getV x >>> 1)).advance := rfl

theorem exec_subn : exec (.subn x y) s =
    let t := s.setFlag (noBorrowFlag (s.getV y) (s.getV x))
    .next (t.setV x (t.getV y - t.getV x)).advance := rfl

theorem exec_shl : exec (.shl x y) s =
    let t := s.setFlag (highBitFlag (s.getV x))
    .next (t.setV x (t.getV x <<< 1)).advance := rfl

end arithmetic

/-- Settles O22: each instruction writes its flag and then its result, and the result reads the flag in place of an
operand that is `VF`. -/
theorem flagArithmeticWritesFlagThenResult : Obligations.FlagArithmeticWritesFlagThenResult := by
  intro s x y
  refine ⟨?_, ?_, ?_, ?_, ?_⟩
  · refine writesFlagAndReg_of_exec (exec_addReg s x y) (carryFlag_toNat _ _) ?_
    rw [BitVec.toNat_add, s.setFlag_getV_toNat, s.setFlag_getV_toNat, carryFlag_toNat]
  · refine writesFlagAndReg_of_exec (exec_sub s x y) (noBorrowFlag_toNat _ _) ?_
    rw [byte_sub_toNat, s.setFlag_getV_toNat, s.setFlag_getV_toNat, noBorrowFlag_toNat]
  · refine writesFlagAndReg_of_exec (exec_shr s x y) (lowBitFlag_toNat _) ?_
    rw [byte_shr_toNat, s.setFlag_getV_toNat, lowBitFlag_toNat]
  · refine writesFlagAndReg_of_exec (exec_subn s x y) (noBorrowFlag_toNat _ _) ?_
    rw [byte_sub_toNat, s.setFlag_getV_toNat, s.setFlag_getV_toNat, noBorrowFlag_toNat]
  · refine writesFlagAndReg_of_exec (exec_shl s x y) (highBitFlag_toNat _) ?_
    rw [byte_shl_toNat, s.setFlag_getV_toNat, highBitFlag_toNat]

/-! ### The table of `VF` as an operand -/

/-- Where the result's register is `VF`, the result is what remains there. -/
theorem WritesFlagAndReg.leaves {i : Instr} {s : State} {c n m : Nat} (h : WritesFlagAndReg i s 15 c n) (hn : n = m) :
    Completes i s fun t => (t.getV 15).toNat = m ∧ RegsSameBut [15] s t := by
  obtain ⟨t, he, -, hv, hregs, -⟩ := h
  exact ⟨t, he, hv.trans hn, fun r hr => hregs r (by simpa using hr)⟩

/-- Where the result's register is another one, `VF` holds the flag beside it. -/
theorem WritesFlagAndReg.leavesBoth {i : Instr} {s : State} {x : Reg} {c n m : Nat} (h : WritesFlagAndReg i s x c n)
    (hx : x ≠ 15) (hn : n = m) :
    Completes i s fun t => (t.getV 15).toNat = c ∧ (t.getV x).toNat = m ∧ RegsSameBut [x, 15] s t := by
  obtain ⟨t, he, hf, hv, hregs, -⟩ := h
  exact ⟨t, he, hf hx, hv.trans hn, hregs⟩

/-- Settles O23: each row of the table is the general outcome with the flag in place of the operand that is `VF`. -/
theorem flagRegisterAsOperandTable : Obligations.FlagRegisterAsOperandTable := by
  intro s x y hx hy f a b
  have hf : f < 256 := (s.getV 15).isLt
  have ha : a < 256 := (s.getV x).isLt
  have hb : b < 256 := (s.getV y).isLt
  obtain ⟨add_fy, sub_fy, shr_fy, subn_fy, shl_fy⟩ := flagArithmeticWritesFlagThenResult s 15 y
  obtain ⟨add_xf, sub_xf, -, subn_xf, -⟩ := flagArithmeticWritesFlagThenResult s x 15
  obtain ⟨add_ff, sub_ff, -, subn_ff, -⟩ := flagArithmeticWritesFlagThenResult s 15 15
  simp only [if_true, if_neg hy] at add_fy sub_fy shr_fy subn_fy shl_fy
  simp only [if_true, if_neg hx] at add_xf sub_xf subn_xf
  simp only [if_true] at add_ff sub_ff subn_ff
  refine ⟨add_fy.leaves rfl, add_xf.leavesBoth hx rfl, add_ff.leaves ?_, sub_fy.leaves rfl, sub_xf.leavesBoth hx rfl,
    sub_ff.leaves ?_, shr_fy.leaves ?_, subn_fy.leaves rfl, subn_xf.leavesBoth hx rfl, subn_ff.leaves ?_,
    shl_fy.leaves ?_⟩
  · show _ = if 2 * f > 255 then 2 else 0
    rw [two_mul]
    split <;> rfl
  · rw [if_neg (lt_irrefl _)]
  · omega
  · rw [if_neg (lt_irrefl _)]
  · split <;> omega

/-! ### `FX1E` -/

theorem exec_addI (x : Reg) (s : State) : exec (.addI x) s =
    let t := s.setFlag (indexFlag s.i (s.getV x))
    .next (t.setI (t.i + zextByte (t.getV x))).advance := rfl

/-- Settles O32: the flag is written first, so what is added is the flag where `V[X]` is `VF`. -/
theorem addToIndexFlagsPassage : Obligations.AddToIndexFlagsPassage := by
  intro s x
  refine ⟨_, exec_addI x s, ?_, ?_, (frame_setFlag_setI_advance s _ _).regs, State.advance_advancesBy _,
    (frame_setFlag_setI_advance s _ _).parts.mono (by simp)⟩
  · exact (congrArg BitVec.toNat (State.setV_getV_self s flagReg _)).trans (indexFlag_toNat _ _)
  · rw [State.advance_i, State.setI_i, BitVec.toNat_add, zextByte_toNat, s.setFlag_getV_toNat, indexFlag_toNat,
      State.setFlag_i]

end Sys2Proof.Machine
end

section
/-!
The return stack (spec/41_control_flow.md section 2, 10_state.md section 5): calls and returns in closed form, and the
proofs that settle their obligations.
-/

namespace Sys2Proof.Machine

variable {s : State}

/-- The state after a push in a free slot and the jump (10_state.md R17). -/
def State.afterCall (s : State) (nnn : Addr) : State :=
  ({ s with stack := s.stack.set s.sp s.pc, sp := s.sp + 1 } : State).setPc (zextAddr nnn)

/-- The state after a pop of a held slot and the jump behind the popped address (10_state.md R18). -/
def State.afterRet (s : State) : State :=
  ({ s with sp := s.sp - 1 } : State).setPc (s.stack.getD (s.sp - 1) 0 + 2)

theorem exec_call_free (nnn : Addr) (h : s.sp < s.config.stackDepth) :
    exec (.call nnn) s = .next (s.afterCall nnn) := by
  simp only [exec, execCall, push_free h, complete_ok, State.afterCall]

theorem raises_call_full (nnn : Addr) (h : s.config.stackDepth ≤ s.sp) :
    Raises (.call nnn) s (.stackOverflow s.pc) := by
  simp only [Raises, exec, execCall, push_full h, complete_error, raiseFault]

theorem exec_ret_held (h : 0 < s.sp) : exec .ret s = .next s.afterRet := by
  simp only [exec, execRet, pop_held h, complete_ok, State.afterRet]

theorem raises_ret_empty (h : s.sp = 0) : Raises .ret s .stackUnderflow := by
  simp only [Raises, exec, execRet, pop_empty h, complete_error, raiseFault]

theorem frame_afterCall (s : State) (nnn : Addr) : Frame [.pc, .stack, .sp] [] s (s.afterCall nnn) :=
  (((frame_stack s (s.stack.set s.sp s.pc)).trans (frame_sp _ (s.sp + 1))).trans (frame_setPc _ _)).mono
    (by simp) (by simp)

theorem frame_afterRet (s : State) : Frame [.pc, .sp] [] s s.afterRet :=
  ((frame_sp s (s.sp - 1)).trans (frame_setPc _ _)).mono (by simp) (by simp)

/-- The address a call pushed is the one its slot holds, in a stack that has that slot. -/
theorem afterCall_getElem? (nnn : Addr) (h : s.sp < s.stack.length) : (s.afterCall nnn).stack[s.sp]? = some s.pc :=
  List.getElem?_set_self h

theorem afterCall_getElem?_ne {k : Nat} (nnn : Addr) (h : k ≠ s.sp) :
    (s.afterCall nnn).stack[k]? = s.stack[k]? := List.getElem?_set_ne h.symm

theorem afterRet_pc {a : Word} (h : s.stack[s.sp - 1]? = some a) : s.afterRet.pc.toNat = (a.toNat + 2) % 65536 := by
  have hpc : s.afterRet.pc = a + 2 := by
    rw [State.afterRet, State.setPc_pc, List.getD_eq_getElem?_getD, h, Option.getD_some]
  rw [hpc, BitVec.toNat_add]
  rfl

/-- Settles O28: a free slot takes the call's own address, and a full stack rejects it. -/
theorem callPushesItsAddressOrFaults : Obligations.CallPushesItsAddressOrFaults := by
  intro s nnn hlen
  refine ⟨fun h => ?_, raises_call_full nnn⟩
  exact ⟨_, exec_call_free nnn h, zextAddr_toNat nnn, rfl, afterCall_getElem? nnn (hlen ▸ h),
    fun k hk => afterCall_getElem?_ne nnn hk, (frame_afterCall s nnn).parts.mono (by simp)⟩

/-- Settles O29: the popped slot's address plus 2 is where the return goes on, and an empty stack rejects it. -/
theorem returnPopsAddressOrFaults : Obligations.ReturnPopsAddressOrFaults := by
  intro s
  refine ⟨fun a h ha => ?_, raises_ret_empty⟩
  exact ⟨_, exec_ret_held h, afterRet_pc ha, rfl, (frame_afterRet s).parts.mono (by simp)⟩

/-- Settles O30: the call left its own address in the slot below its new `SP`, which is the slot the return pops. -/
theorem returnResumesAfterCallSite : Obligations.ReturnResumesAfterCallSite := by
  intro s t u nnn hlen hfree he hstack hsp
  obtain rfl : s.afterCall nnn = t := Host.Outcome.next.inj ((exec_call_free nnn hfree).symm.trans he)
  have husp : u.sp = s.sp + 1 := hsp
  have hslot : u.stack[u.sp - 1]? = some s.pc := by
    rw [hstack, husp, Nat.add_sub_cancel]
    exact afterCall_getElem? nnn (hlen ▸ hfree)
  refine ⟨u.afterRet, exec_ret_held (by omega), afterRet_pc hslot, ?_⟩
  exact congrArg (· - 1) husp

end Sys2Proof.Machine
end

section
/-!
The memory transfers (spec/44_index_memory.md section 2): `FX33`, `FX55` and `FX65` in closed form, and the proofs that
settle their obligations.
-/

namespace Sys2Proof.Machine

variable {s : State} {x : Reg}

/-! ### Single bytes -/

theorem memRead_setByte (s : State) (a k : Nat) (b : Byte) (h : k ≠ a) :
    memRead (s.setByte a b) k = memRead s k := by
  simp only [memRead, memoryFaultAt, State.setByte_config, State.setByte_byteAt, if_neg h]

theorem memRead_setByte_self {a : Nat} (b : Byte) (h : a < s.config.ramSize) :
    memRead (s.setByte a b) a = .ok b := by
  rw [memRead_inRange (s := s.setByte a b) h, State.setByte_byteAt, if_pos rfl]

/-- Settles O37: a write in range is one cell of memory, and an access out of range is rejected with its address. -/
theorem byteReadsBackAsWritten : Obligations.ByteReadsBackAsWritten := by
  intro s a b
  refine ⟨fun h => ?_, fun h => ⟨memWrite_outOfRange h b, memRead_outOfRange h⟩⟩
  exact ⟨_, memWrite_inRange h b, memRead_setByte_self b h, fun k hk => memRead_setByte s a k b hk,
    onlyChanges_memory s _, s.setByte_wf a b h⟩

/-! ### Copied bytes -/

theorem copyBytes_byteAt_getElem {a k : Nat} (bs : List Byte) (s : State) (h : k < bs.length) :
    (copyBytes a bs s).byteAt (a + k) = bs[k] := by
  rw [copyBytes_byteAt, if_pos (Nat.le_add_right a k), Nat.add_sub_cancel_left, List.getD_eq_getElem _ _ h]

theorem copyBytes_bytesSameOutside (a : Nat) (bs : List Byte) (s : State) :
    BytesSameOutside a bs.length s (copyBytes a bs s) := by
  intro k hk
  rw [copyBytes_byteAt]
  split
  · exact List.getD_eq_default _ _ (by omega)
  · rfl

theorem copyBytes_pc (a : Nat) (bs : List Byte) (s : State) : (copyBytes a bs s).pc = s.pc :=
  copyBytes_onlyChanges s a bs .pc (by simp)

/-- Copied bytes and an advance: `PC` is the old one plus 2, as memory holds no `PC`. -/
theorem copyBytes_advancesBy (a : Nat) (bs : List Byte) (s : State) :
    AdvancesBy 2 s (copyBytes a bs s).advance := by
  have h := (copyBytes a bs s).advance_advancesBy
  rwa [copyBytes_pc] at h

/-! ### `FX33` -/

/-- The bytes that `FX33` stores (44_index_memory.md R143). -/
def digits (b : Byte) : List Byte := [hundreds b, tens b, ones b]

/-- The state after the three digits are stored. -/
def State.afterLdB (s : State) (x : Reg) : State := (copyBytes s.i.toNat (digits (s.getV x)) s).advance

theorem exec_ldB_inRange (h : s.i.toNat + 2 < s.config.ramSize) : exec (.ldB x) s = .next (s.afterLdB x) := by
  have hst : storeBytes (s.effAddr 0) (digits (s.getV x)) s = .ok (copyBytes s.i.toNat (digits (s.getV x)) s) :=
    storeBytes_inRange s.i.toNat (digits (s.getV x)) s h
  simp only [digits] at hst
  simp only [exec, execLdB, hst, complete_ok, State.afterLdB, digits]

theorem raises_ldB (h : s.config.ramSize ≤ s.i.toNat + 2) :
    Raises (.ldB x) s (.memoryFault .write (max s.i.toNat s.config.ramSize)) := by
  have hst : storeBytes (s.effAddr 0) [hundreds (s.getV x), tens (s.getV x), ones (s.getV x)] s =
      .error (.memoryFault .write (max s.i.toNat s.config.ramSize)) :=
    storeBytes_outOfRange s.i.toNat _ s (List.cons_ne_nil _ _) (Nat.lt_succ_of_le h)
  simp only [Raises, exec, execLdB, hst, complete_error, raiseFault]

theorem frame_afterLdB (h : s.i.toNat + 2 < s.config.ramSize) : Frame [.pc, .memory] [] s (s.afterLdB x) :=
  ((frame_copyBytes s s.i.toNat (digits (s.getV x)) h).trans (frame_advance _)).mono (by simp) (by simp)

theorem hundreds_toNat (b : Byte) : (hundreds b).toNat = b.toNat / 100 := by
  have hb : b.toNat < 256 := b.isLt
  rw [hundreds, BitVec.toNat_ofNat, Nat.mod_eq_of_lt (by omega)]

theorem tens_toNat (b : Byte) : (tens b).toNat = b.toNat / 10 % 10 := by
  rw [tens, BitVec.toNat_ofNat, Nat.mod_eq_of_lt (by omega)]

theorem ones_toNat (b : Byte) : (ones b).toNat = b.toNat % 10 := by
  rw [ones, BitVec.toNat_ofNat, Nat.mod_eq_of_lt (by omega)]

/-- The three stored bytes, as bytes. -/
theorem afterLdB_byteAt (s : State) (x : Reg) :
    (s.afterLdB x).byteAt s.i.toNat = hundreds (s.getV x) ∧ (s.afterLdB x).byteAt (s.i.toNat + 1) = tens (s.getV x) ∧
      (s.afterLdB x).byteAt (s.i.toNat + 2) = ones (s.getV x) := by
  have hdigit : ∀ k (hk : k < 3), (s.afterLdB x).byteAt (s.i.toNat + k) = (digits (s.getV x))[k] :=
    fun k hk => copyBytes_byteAt_getElem (digits (s.getV x)) s hk
  exact ⟨hdigit 0 (by decide), hdigit 1 (by decide), hdigit 2 (by decide)⟩

/-- Settles O33: in range, a copy of the three digits and an advance; out of range, the fault of the store. -/
theorem decimalDigitsAreStoredOrFault : Obligations.DecimalDigitsAreStoredOrFault := by
  intro s x
  refine ⟨fun h => ?_, raises_ldB⟩
  obtain ⟨hhundreds, htens, hones⟩ := afterLdB_byteAt s x
  exact ⟨_, exec_ldB_inRange h, hhundreds ▸ hundreds_toNat _, htens ▸ tens_toNat _, hones ▸ ones_toNat _,
    copyBytes_bytesSameOutside _ (digits (s.getV x)) s, copyBytes_advancesBy _ _ s,
    (frame_afterLdB h).parts.mono (by simp)⟩

/-! ### `FX55` -/

/-- The value `X + 1` fits `I` (44_index_memory.md R144, R145). -/
theorem indexAfter_toNat (x : Reg) : (BitVec.ofNat 16 (x.val + 1)).toNat = x.val + 1 := by
  rw [BitVec.toNat_ofNat, Nat.mod_eq_of_lt (by omega)]

theorem regsUpTo_getElem (x k : Reg) (h : k.val < (regsUpTo x).length) : (regsUpTo x)[k.val] = k := by
  have hk : k.val < x.val + 1 := by rwa [regsUpTo_length] at h
  have hget := regsUpTo_getElem? x k.val
  rw [List.getElem?_eq_getElem h, dif_pos hk] at hget
  exact Option.some.inj hget

/-- The bytes that `FX55` stores (44_index_memory.md R144). -/
def State.bytesUpTo (s : State) (x : Reg) : List Byte := (regsUpTo x).map s.getV

theorem State.bytesUpTo_length (s : State) (x : Reg) : (s.bytesUpTo x).length = x.val + 1 := by
  rw [State.bytesUpTo, List.length_map, regsUpTo_length]

/-- The state after `V[0..X]` are stored. -/
def State.afterStRegs (s : State) (x : Reg) : State :=
  ((copyBytes s.i.toNat (s.bytesUpTo x) s).setI (BitVec.ofNat 16 (x.val + 1))).advance

theorem exec_stRegs_inRange (h : s.i.toNat + x.val < s.config.ramSize) :
    exec (.stRegs x) s = .next (s.afterStRegs x) := by
  have hst : storeBytes (s.effAddr 0) (s.bytesUpTo x) s = .ok (copyBytes s.i.toNat (s.bytesUpTo x) s) :=
    storeBytes_inRange s.i.toNat (s.bytesUpTo x) s (by rw [s.bytesUpTo_length]; omega)
  rw [State.bytesUpTo] at hst
  simp only [exec, execStRegs, hst, complete_ok, State.afterStRegs, State.bytesUpTo]

theorem raises_stRegs (h : s.config.ramSize ≤ s.i.toNat + x.val) :
    Raises (.stRegs x) s (.memoryFault .write (max s.i.toNat s.config.ramSize)) := by
  have hst : storeBytes (s.effAddr 0) ((regsUpTo x).map s.getV) s =
      .error (.memoryFault .write (max s.i.toNat s.config.ramSize)) :=
    storeBytes_outOfRange s.i.toNat _ s (by simp [regsUpTo_ne_nil])
      (by rw [List.length_map, regsUpTo_length]; omega)
  simp only [Raises, exec, execStRegs, hst, complete_error, raiseFault]

theorem frame_afterStRegs (h : s.i.toNat + x.val < s.config.ramSize) :
    Frame [.pc, .memory, .i] [] s (s.afterStRegs x) :=
  (((frame_copyBytes s s.i.toNat (s.bytesUpTo x) (by rw [s.bytesUpTo_length]; omega)).trans
    (frame_setI _ _)).trans (frame_advance _)).mono (by simp) (by simp)

theorem afterStRegs_byteAt (s : State) {x k : Reg} (h : k ≤ x) :
    (s.afterStRegs x).byteAt (s.i.toNat + k.val) = s.getV k := by
  have hk : k.val < (s.bytesUpTo x).length := by rw [s.bytesUpTo_length]; exact Nat.lt_succ_of_le h
  calc (s.afterStRegs x).byteAt (s.i.toNat + k.val)
      = (s.bytesUpTo x)[k.val] := copyBytes_byteAt_getElem (s.bytesUpTo x) s hk
    _ = s.getV k := by simp only [State.bytesUpTo, List.getElem_map, regsUpTo_getElem]

/-- Settles O34: in range, a copy of the registers' bytes, the new index and an advance; out of range, the fault of the
store. -/
theorem registersAreStoredOrFault : Obligations.RegistersAreStoredOrFault := by
  intro s x
  refine ⟨decode_stRegs x, fun h => ?_, raises_stRegs⟩
  have houtside := copyBytes_bytesSameOutside s.i.toNat (s.bytesUpTo x) s
  rw [s.bytesUpTo_length] at houtside
  exact ⟨_, exec_stRegs_inRange h, fun k hk => afterStRegs_byteAt s hk, indexAfter_toNat x, houtside,
    copyBytes_advancesBy s.i.toNat (s.bytesUpTo x) s, (frame_afterStRegs h).parts.mono (by simp)⟩

/-! ### `FX65` -/

/-- The state after `V[0..X]` are loaded, where the registers are then `v`. -/
def State.afterLdRegs (s : State) (x : Reg) (v : Vector Byte 16) : State :=
  (({ s with v := v } : State).setI (BitVec.ofNat 16 (x.val + 1))).advance

theorem exec_ldRegs_inRange (h : s.i.toNat + x.val < s.config.ramSize) :
    ∃ v, exec (.ldRegs x) s = .next (s.afterLdRegs x v) ∧
      (∀ k : Reg, k ≤ x → (s.afterLdRegs x v).getV k = s.byteAt (s.i.toNat + k.val)) ∧
      ∀ k : Reg, x < k → (s.afterLdRegs x v).getV k = s.getV k := by
  obtain ⟨v, hload, hin, hout⟩ := loadRegs_inRange s.i.toNat (regsUpTo x) s (regsUpTo_nodup x)
    (by rw [regsUpTo_length]; omega)
  have hload' : loadRegs (s.effAddr 0) (regsUpTo x) s = .ok { s with v := v } := hload
  refine ⟨v, ?_, fun k hk => ?_, fun k hk => ?_⟩
  · simp only [exec, execLdRegs, hload', complete_ok, State.afterLdRegs]
  · have hlen : k.val < (regsUpTo x).length := by rw [regsUpTo_length]; exact Nat.lt_succ_of_le hk
    have hk' := hin k.val hlen
    rwa [regsUpTo_getElem] at hk'
  · exact hout k fun hmem => absurd ((mem_regsUpTo x k).mp hmem) (not_le_of_gt hk)

theorem raises_ldRegs (h : s.config.ramSize ≤ s.i.toNat + x.val) :
    Raises (.ldRegs x) s (.memoryFault .read (max s.i.toNat s.config.ramSize)) := by
  have hload : loadRegs (s.effAddr 0) (regsUpTo x) s = .error (.memoryFault .read (max s.i.toNat s.config.ramSize)) :=
    loadRegs_outOfRange s.i.toNat (regsUpTo x) s (regsUpTo_ne_nil x) (by rw [regsUpTo_length]; omega)
  simp only [Raises, exec, execLdRegs, hload, complete_error, raiseFault]

theorem afterLdRegs_onlyChanges (s : State) (x : Reg) (v : Vector Byte 16) :
    OnlyChanges [.v, .i, .pc] s (s.afterLdRegs x v) :=
  ((onlyChanges_v s v).trans' (State.setI_onlyChanges _ _)).trans' (State.setPc_onlyChanges _ _)

/-- Settles O35: in range, the registers loaded, the new index and an advance; out of range, the fault of the load. -/
theorem registersAreLoadedOrFault : Obligations.RegistersAreLoadedOrFault := by
  intro s x
  refine ⟨decode_ldRegs x, fun h => ?_, raises_ldRegs⟩
  obtain ⟨v, he, hin, hout⟩ := exec_ldRegs_inRange h
  exact ⟨_, he, hin, hout, indexAfter_toNat x, State.advance_advancesBy _, afterLdRegs_onlyChanges s x v⟩

/-- Settles O36: the load reads each register's byte from the address the store left it at. -/
theorem loadAfterStoreRestoresRegisters : Obligations.LoadAfterStoreRestoresRegisters := by
  intro s t u x he h hi hconfig hmemory
  obtain rfl : s.afterStRegs x = t := Host.Outcome.next.inj ((exec_stRegs_inRange h).symm.trans he)
  have hramSize : u.config = s.config := hconfig.trans ((frame_afterStRegs h).parts .config (by simp))
  have hbyte : ∀ a, u.byteAt a = (s.afterStRegs x).byteAt a := fun a => by
    rw [State.byteAt, hconfig, hmemory, State.byteAt]
  obtain ⟨v, hload, hin, -⟩ := exec_ldRegs_inRange (s := u) (x := x) (by rw [hi, hramSize]; exact h)
  refine ⟨_, hload, fun k hk => ?_⟩
  rw [hin k hk, hbyte, hi, afterStRegs_byteAt s hk]

end Sys2Proof.Machine
end

section
/-!
Drawing (spec/45_display.md): the sprite of a claim as the rows of the compositor, `DXYN` in closed form, and the proofs
that settle its obligations.
-/

namespace Sys2Proof.Machine

variable {s t : State} {x y : Reg} {n : Nat}

/-! ### A sprite and its rows -/

theorem spriteFits_iff (s : State) (cx cy n : Nat) : SpriteFits s cx cy n ↔ RowsFit s cx cy (List.range n) := by
  simp only [SpriteFits, RowsFit, List.mem_range]
  rfl

theorem lands_iff (s : State) (cx cy n r c : Nat) :
    Lands s cx cy n r c ↔ RowsLand s cx cy (List.range n) r c := by
  constructor
  · rintro ⟨j, k, hj, hk, hr, hc, hset⟩
    exact ⟨j, List.mem_range.mpr hj, hr, k, List.mem_range.mpr hk, hc, hset⟩
  · rintro ⟨j, hj, hr, k, hk, hc, hset⟩
    exact ⟨j, k, List.mem_range.mp hj, List.mem_range.mp hk, hr, hc, hset⟩

/-- The reset of `VF`, which comes before the rows, changes no sprite's faults. -/
theorem drawFaults_setFlag (s : State) (f : Byte) (cx cy n : Nat) :
    (List.range n).flatMap (rowFaults (s.setFlag f) cx cy) = drawFaults s cx cy n := by
  rw [drawFaults, funext fun j => (setFlag_onlyDraws s f).rowFaults cx cy j]

/-- The sprite lies in memory, so a state with that memory and index has the same sprite. -/
theorem lands_congr (hi : t.i = s.i) (hb : ∀ a, t.byteAt a = s.byteAt a) (cx cy n r c : Nat) :
    Lands t cx cy n r c ↔ Lands s cx cy n r c := by
  simp only [Lands, SpriteSet, hi, hb]

theorem spriteFits_congr (hi : t.i = s.i) (hb : ∀ a, t.byteAt a = s.byteAt a) (hc : t.config = s.config)
    (cx cy n : Nat) : SpriteFits t cx cy n ↔ SpriteFits s cx cy n := by
  simp only [SpriteFits, SpriteSet, hi, hb, hc]

/-! ### `DXYN` -/

/-- What the rows of a sprite leave, drawn from `s` with `VF` reset: the cells under set bits inverted, and the
collision in `VF` (45_display.md R151). -/
structure Composed (s : State) (cx cy n : Nat) (u : State) : Prop where
  onlyDraws : OnlyDraws s u
  inverted : ∀ r c, Lands s cx cy n r c → u.cell r c = !s.cell r c
  kept : ∀ r c, ¬Lands s cx cy n r c → u.cell r c = s.cell r c
  collision : (∃ r c, Lands s cx cy n r c ∧ s.cell r c = true) → u.getV 15 = 1
  noCollision : (¬∃ r c, Lands s cx cy n r c ∧ s.cell r c = true) → u.getV 15 = 0

theorem drawRows_composed {cx cy : Nat} (h : SpriteFits s cx cy n) :
    ∃ u, drawRows cx cy (List.range n) (s.setFlag 0) = .ok u ∧ Composed s cx cy n u := by
  have hflag := setFlag_onlyDraws s 0
  obtain ⟨u, hu, hdraws, hcells, hvf⟩ := drawRows_fits cx cy (List.range n) (s.setFlag 0) List.nodup_range
    ((hflag.rowsFit cx cy _).mpr ((spriteFits_iff s cx cy n).mp h))
  simp only [hflag.rowsLand, ← lands_iff, State.setFlag_cell] at hcells hvf
  refine ⟨u, hu, hflag.trans' hdraws, fun r c => (hcells r c).1, fun r c => (hcells r c).2, fun hhit => ?_,
    fun hmiss => ?_⟩
  · exact hvf.elim And.right fun hno => absurd hhit hno.1
  · exact hvf.elim (fun hyes => absurd hyes.1 hmiss) fun hno => hno.2.trans (State.setV_getV_self s flagReg 0)

theorem exec_drw_fits (h : SpriteFits s (s.getV x).toNat (s.getV y).toNat n) :
    ∃ u, exec (.drw x y n) s = .next u.raiseRedraw.advance ∧ Composed s (s.getV x).toNat (s.getV y).toNat n u := by
  obtain ⟨u, hu, hcomposed⟩ := drawRows_composed h
  exact ⟨u, by simp only [exec, execDrw, hu, complete_ok], hcomposed⟩

theorem raises_drw {c : FaultCause} (h : (drawFaults s (s.getV x).toNat (s.getV y).toNat n).head? = some c) :
    Raises (.drw x y n) s c := by
  have hrows := drawRows_faults (s.getV x).toNat (s.getV y).toNat (List.range n) (s.setFlag 0) c
    (by rw [drawFaults_setFlag]; exact h)
  simp only [Raises, exec, execDrw, hrows, complete_error, raiseFault]

theorem drawFaults_head_none (s : State) (cx cy n : Nat) :
    (drawFaults s cx cy n).head? = none ↔ SpriteFits s cx cy n :=
  (rowFaults_head_none cx cy (List.range n) s).trans (spriteFits_iff s cx cy n).symm

theorem OnlyDraws.pc (h : OnlyDraws s t) : t.pc = s.pc := by rw [h.parts]

theorem OnlyDraws.frame_raiseRedraw_advance (h : OnlyDraws s t) :
    Frame [.pc, .v, .display, .redraw] [15] s t.raiseRedraw.advance :=
  ((h.frame.trans (frame_raiseRedraw t)).trans (frame_advance _)).mono (by simp) (by simp)

/-- Settles O40: the composed rows, then the redraw flag and the advance. -/
theorem drawComposesSpriteByXor : Obligations.DrawComposesSpriteByXor := by
  intro s x y n cx cy hfit
  obtain ⟨u, he, hu⟩ := exec_drw_fits hfit
  have hframe := hu.onlyDraws.frame_raiseRedraw_advance
  have hpc : AdvancesBy 2 s u.raiseRedraw.advance := by
    rw [AdvancesBy, ← hu.onlyDraws.pc]
    exact u.raiseRedraw.advance_advancesBy
  exact ⟨_, he, hu.inverted, hu.kept, hu.collision, hu.noCollision, rfl, hframe.regs, hpc,
    hframe.parts.mono (by simp)⟩

/-- Settles O41: the first fault of the draw order is the one raised, and an empty list of faults is a sprite that
fits. -/
theorem drawFaultIsFirstOffender : Obligations.DrawFaultIsFirstOffender :=
  fun s _ _ n => ⟨fun _ => raises_drw, drawFaults_head_none s _ _ n⟩

/-- Settles O42: the second draw is the first one's sprite at the first one's corner, so each cell under it is inverted
twice, and on a blank region every cell under a set bit is a collision. -/
theorem drawingTwiceRestoresDisplay : Obligations.DrawingTwiceRestoresDisplay := by
  intro s t x y n hx hy cx cy hfit he
  obtain ⟨t', he', hinv, hkept, hhit, hmiss, -, hregs, -, hframe⟩ := drawComposesSpriteByXor s x y n hfit
  obtain rfl : t = t' := Host.Outcome.next.inj (he.symm.trans he')
  have hi : t.i = s.i := hframe .i (by simp)
  have hb : ∀ a, t.byteAt a = s.byteAt a := hframe .memory (by simp)
  have hcx : (t.getV x).toNat = cx := congrArg BitVec.toNat (hregs x (by simpa using hx))
  have hcy : (t.getV y).toNat = cy := congrArg BitVec.toNat (hregs y (by simpa using hy))
  have hagain := drawComposesSpriteByXor t x y n
  simp only [hcx, hcy, spriteFits_congr hi hb (hframe .config (by simp)), lands_congr hi hb] at hagain
  obtain ⟨u, hu, hinv', hkept', hhit', hmiss', -⟩ := hagain hfit
  refine ⟨u, hu, fun r c => ?_, fun hblank => ⟨?_, ?_⟩⟩
  · by_cases hl : Lands s cx cy n r c
    · rw [hinv' r c hl, hinv r c hl, Bool.not_not]
    · rw [hkept' r c hl, hkept r c hl]
  · exact hmiss fun ⟨r, c, hl, hset⟩ => absurd hset (by simp [hblank r c hl])
  · constructor
    · intro hone
      by_contra hno
      have hzero : u.getV 15 = 0 := hmiss' fun ⟨r, c, hl, _⟩ => hno ⟨r, c, hl⟩
      exact absurd (hone.symm.trans hzero) (by decide)
    · rintro ⟨r, c, hl⟩
      exact hhit' ⟨r, c, hl, by rw [hinv r c hl, hblank r c hl]; rfl⟩

end Sys2Proof.Machine
end

section
/-!
What an execute phase can do, once for all instructions: it enters one of its instruction's faults, or it completes
within its instruction's frame (spec/10_state.md R31, 60_exceptions.md R171); and the proofs that settle the rules of who
writes what and who raises what.
-/

namespace Sys2Proof.Machine

variable {s t : State} {i : Instr}

/-- The execute phase enters a fault of the instruction, or completes within the instruction's frame. -/
def Outcomes (i : Instr) (s : State) : Prop :=
  (∃ c, CanRaise i c ∧ Raises i s c) ∨
    ∃ t, exec i s = .next t ∧ Frame (.pc :: writtenParts i) (writtenRegs i) s t

theorem outcomes_of_frame (he : exec i s = .next t) (hf : Frame (.pc :: writtenParts i) (writtenRegs i) s t) :
    Outcomes i s := .inr ⟨t, he, hf⟩

theorem outcomes_of_raises {c : FaultCause} (hr : Raises i s c) (hc : CanRaise i c) : Outcomes i s :=
  .inl ⟨c, hc, hr⟩

/-! ### The instructions that can fault or block -/

theorem ret_outcomes (s : State) : Outcomes .ret s := by
  rcases Nat.eq_zero_or_pos s.sp with h | h
  · exact outcomes_of_raises (raises_ret_empty h) trivial
  · exact outcomes_of_frame (exec_ret_held h) (frame_afterRet s)

theorem call_outcomes (nnn : Addr) (s : State) : Outcomes (.call nnn) s := by
  rcases Nat.lt_or_ge s.sp s.config.stackDepth with h | h
  · exact outcomes_of_frame (exec_call_free nnn h) (frame_afterCall s nnn)
  · exact outcomes_of_raises (raises_call_full nnn h) trivial

theorem skp_outcomes (x : Reg) (s : State) : Outcomes (.skp x) s := by
  rcases Nat.lt_or_ge (s.getV x).toNat 16 with h | h
  · exact outcomes_of_frame (exec_skp (k := ⟨_, h⟩) rfl) (frame_setPc s _)
  · exact outcomes_of_raises (raises_skp h) trivial

theorem sknp_outcomes (x : Reg) (s : State) : Outcomes (.sknp x) s := by
  rcases Nat.lt_or_ge (s.getV x).toNat 16 with h | h
  · exact outcomes_of_frame (exec_sknp (k := ⟨_, h⟩) rfl) (frame_setPc s _)
  · exact outcomes_of_raises (raises_sknp h) trivial

theorem ldVxK_outcomes (x : Reg) (s : State) : Outcomes (.ldVxK x) s := by
  cases h : pressedKey s with
  | none => exact outcomes_of_frame (exec_ldVxK_blocked h) ((Frame.refl s).mono (by simp) (by simp))
  | some k => exact outcomes_of_frame (exec_ldVxK_pressed h) (frame_setV_advance s x _)

theorem ldB_outcomes (x : Reg) (s : State) : Outcomes (.ldB x) s := by
  rcases Nat.lt_or_ge (s.i.toNat + 2) s.config.ramSize with h | h
  · exact outcomes_of_frame (exec_ldB_inRange h) (frame_afterLdB h)
  · exact outcomes_of_raises (raises_ldB h) trivial

theorem stRegs_outcomes (x : Reg) (s : State) : Outcomes (.stRegs x) s := by
  rcases Nat.lt_or_ge (s.i.toNat + x.val) s.config.ramSize with h | h
  · exact outcomes_of_frame (exec_stRegs_inRange h) (frame_afterStRegs h)
  · exact outcomes_of_raises (raises_stRegs h) trivial

theorem ldRegs_outcomes (x : Reg) (s : State) : Outcomes (.ldRegs x) s := by
  rcases Nat.lt_or_ge (s.i.toNat + x.val) s.config.ramSize with h | h
  · obtain ⟨v, he, -, hout⟩ := exec_ldRegs_inRange h
    refine outcomes_of_frame he ⟨(afterLdRegs_onlyChanges s x v).mono (by simp [writtenParts]), fun r hr => ?_, id⟩
    exact hout r (lt_of_not_ge fun hle => hr ((mem_regsUpTo x r).mpr hle))
  · exact outcomes_of_raises (raises_ldRegs h) trivial

/-- The faults of a draw are those of its rows. -/
theorem canRaise_of_mem_rowFaults {c : FaultCause} {cx cy j : Nat} (x y : Reg) (n : Nat)
    (h : c ∈ rowFaults s cx cy j) : CanRaise (.drw x y n) c := by
  rw [rowFaults, List.mem_append] at h
  rcases h with h | h
  · split at h
    · rw [List.mem_singleton] at h
      subst h
      trivial
    · exact absurd h List.not_mem_nil
  · obtain ⟨k, -, rfl⟩ := List.mem_map.mp h
    trivial

theorem drw_outcomes (x y : Reg) (n : Nat) (s : State) : Outcomes (.drw x y n) s := by
  cases h : (drawFaults s (s.getV x).toNat (s.getV y).toNat n).head? with
  | some c =>
    obtain ⟨j, -, hj⟩ := List.mem_flatMap.mp (List.mem_of_head? h)
    exact outcomes_of_raises (raises_drw h) (canRaise_of_mem_rowFaults x y n hj)
  | none =>
    obtain ⟨u, he, hu⟩ := exec_drw_fits ((drawFaults_head_none s _ _ n).mp h)
    exact outcomes_of_frame he hu.onlyDraws.frame_raiseRedraw_advance

/-! ### Every instruction -/

theorem outcomes (i : Instr) (s : State) : Outcomes i s := by
  cases i with
  | ret => exact ret_outcomes s
  | call nnn => exact call_outcomes nnn s
  | skp x => exact skp_outcomes x s
  | sknp x => exact sknp_outcomes x s
  | ldVxK x => exact ldVxK_outcomes x s
  | ldB x => exact ldB_outcomes x s
  | stRegs x => exact stRegs_outcomes x s
  | ldRegs x => exact ldRegs_outcomes x s
  | drw x y n => exact drw_outcomes x y n s
  | cls =>
    exact outcomes_of_frame (exec_cls s) <|
      (((frame_clearDisplay s).trans (frame_raiseRedraw _)).trans (frame_advance _)).mono
        (by simp [writtenParts]) (by simp)
  | jp | jpV0 | seImm | sneImm | seReg | sneReg => exact outcomes_of_frame rfl (frame_setPc s _)
  | ldImm x | addImm x | ldReg x | orReg x | andReg x | xorReg x | ldVxDt x =>
    exact outcomes_of_frame rfl (frame_setV_advance s x _)
  | addReg x | sub x | shr x | subn x | shl x => exact outcomes_of_frame rfl (frame_setFlag_setV_advance s x _ _)
  | rnd x nn => exact outcomes_of_frame (exec_rnd x nn s) (frame_drawRandom_setV_advance s x _)
  | ldI | ldF =>
    exact outcomes_of_frame rfl (((frame_setI s _).trans (frame_advance _)).mono (by simp [writtenParts]) (by simp))
  | addI x => exact outcomes_of_frame (exec_addI x s) (frame_setFlag_setI_advance s _ _)
  | ldDtVx x =>
    exact outcomes_of_frame (exec_ldDtVx x s)
      (((frame_setDt s _).trans (frame_advance _)).mono (by simp [writtenParts]) (by simp))
  | ldStVx x =>
    exact outcomes_of_frame (exec_ldStVx x s)
      (((frame_setSt s _).trans (frame_advance _)).mono (by simp [writtenParts]) (by simp))

/-- No instruction is given the latch, the keys or the parameters. -/
theorem not_written (i : Instr) : ∀ p ∈ [Part.fault, .key, .config], p ∉ .pc :: writtenParts i := by
  cases i with
  | _ => exact of_decide_eq_true rfl

/-- What the state after an execute phase is, when none was latched before: the old state with a fault of the
instruction latched, or one within the instruction's frame. -/
theorem exec_next_cases (hs : s.fault = none) (he : exec i s = .next t) :
    (∃ c, CanRaise i c ∧ t = raiseFault s c (some (encode i))) ∨
      (t.fault = none ∧ Frame (.pc :: writtenParts i) (writtenRegs i) s t) := by
  rcases outcomes i s with ⟨c, hc, hr⟩ | ⟨u, hu, hframe⟩
  · exact .inl ⟨c, hc, Host.Outcome.next.inj (he.symm.trans hr)⟩
  · obtain rfl : t = u := Host.Outcome.next.inj (he.symm.trans hu)
    exact .inr ⟨(hframe.parts .fault (not_written i .fault (by simp))).trans hs, hframe⟩

/-- Settles O19: an execute phase that enters no fault stays within its instruction's frame. -/
theorem instructionsWriteOnlyTheirState : Obligations.InstructionsWriteOnlyTheirState := by
  intro i s t hs he ht
  rcases exec_next_cases hs he with ⟨c, -, rfl⟩ | ⟨-, hframe⟩
  · cases ht
  · exact ⟨hframe.parts, hframe.regs⟩

theorem code_bounds (c : FaultCause) : 1 ≤ c.code ∧ c.code ≤ 5 := by
  cases c <;> simp [FaultCause.code]

/-- Settles O20: an execute phase that ends with a latched fault entered one of its instruction's, with its word. -/
theorem faultsOnlyFromTheirInstructions : Obligations.FaultsOnlyFromTheirInstructions := by
  intro i s t r hs he hr
  rcases exec_next_cases hs he with ⟨c, hc, rfl⟩ | ⟨hnone, -⟩
  · obtain rfl := Option.some.inj hr
    exact ⟨hc, (code_bounds c).1, (code_bounds c).2, rfl⟩
  · exact absurd (hnone.symm.trans hr) nofun

end Sys2Proof.Machine
end

section
/-!
The step cycle (spec/40_step_cycle.md): the ways a step can end, its outputs for each of them, and the proofs that
settle the obligations about steps, outputs, timers and precise faults.
-/

namespace Sys2Proof.Machine

variable {s t u : State} {i : Instr} {w : Word} {c : FaultCause} {r : FaultRecord}

/-! ### The instruction at `PC` -/

theorem fetch_of_currentInstr (h : currentInstr s = some i) : fetch s = .ok (encode i) := by
  obtain ⟨-, w, hf, hd⟩ := (currentInstr_eq_some_iff i).mp h
  rw [encode_of_decode hd, hf]

theorem fault_of_currentInstr (h : currentInstr s = some i) : s.fault = none :=
  ((currentInstr_eq_some_iff i).mp h).1

theorem currentInstr_of_unknown {e : DecodeReject} (hf : fetch s = .ok w) (hd : decode w = .error e) :
    currentInstr s = none := by
  rw [Option.eq_none_iff_forall_ne_some]
  intro i hi
  obtain ⟨-, w', hf', hd'⟩ := (currentInstr_eq_some_iff i).mp hi
  obtain rfl := Except.ok.inj (hf.symm.trans hf')
  cases hd.symm.trans hd'

theorem step_of_currentInstr (hi : currentInstr s = some i) (he : exec i s = .next t) :
    step s = .next (finishStep t) := by
  obtain ⟨hs, w, hf, hd⟩ := (currentInstr_eq_some_iff i).mp hi
  exact step_instr hs hf hd he

theorem decode_of_decodeBytes {hi lo : Byte} {rest : List Byte} (h : decodeBytes [hi, lo] = .ok (i, rest)) :
    decode (wordOfBytes hi lo) = .ok i := by
  cases hd : decode (wordOfBytes hi lo) with
  | error e => simp [decodeBytes, hd] at h
  | ok j =>
    simp only [decodeBytes, hd, Except.ok.injEq, Prod.mk.injEq] at h
    rw [h.1]

/-- Settles O9: both bytes are in memory or the fetch is rejected. -/
theorem fetchReadsBigEndianOrFaults : Obligations.FetchReadsBigEndianOrFaults :=
  fun _ => ⟨fun h => ⟨_, fetch_inRange h, wordOfBytes_toNat _ _⟩, fetch_outOfRange⟩

/-- Settles O10: the two bytes are the fetched word, so their instruction is the current one. -/
theorem stepRunsDecodedInstruction : Obligations.StepRunsDecodedInstruction := by
  intro s t i hs hpc hd he
  have hstep := step_instr hs (fetch_inRange hpc) (decode_of_decodeBytes hd) he
  refine ⟨fun ht => hstep.trans (congrArg _ (finishStep_clear ht)), fun ht => ?_⟩
  obtain ⟨r, hr⟩ := Option.ne_none_iff_exists'.mp ht
  exact hstep.trans (congrArg _ (finishStep_latched hr))

/-! ### The ways a step ends -/

/-- How a step from a state without a latched fault ends (40_step_cycle.md R86, R87): the cases of `step_cases`, with
the fault as one the instruction can raise and the instruction's frame. -/
inductive StepResult (s : State) : State → Prop
  /-- The fetch was rejected. -/
  | fetchFault {c : FaultCause} (hf : fetch s = .error c) : StepResult s (raiseFault s c none)
  /-- The word is no instruction. -/
  | unknown {w : Word} (hf : fetch s = .ok w) (hd : decode w = .error (.unknownOpcode w)) : StepResult s (tick s)
  /-- The instruction entered one of its faults. -/
  | fault {i : Instr} {c : FaultCause} (hi : currentInstr s = some i) (hc : CanRaise i c)
      (he : exec i s = .next (raiseFault s c (some (encode i)))) : StepResult s (raiseFault s c (some (encode i)))
  /-- The instruction completed, and the timers ticked. -/
  | ran {i : Instr} {u : State} (hi : currentInstr s = some i) (he : exec i s = .next u) (hu : u.fault = none)
      (hframe : Frame (.pc :: writtenParts i) (writtenRegs i) s u) : StepResult s (tick u)

theorem exists_stepResult (hs : s.fault = none) : ∃ t, step s = .next t ∧ StepResult s t := by
  cases hf : fetch s with
  | error c => exact ⟨_, step_fetchFault hs hf, .fetchFault hf⟩
  | ok w =>
    cases hd : decode w with
    | error e => exact ⟨_, step_unknown hs hf hd, .unknown hf (decode_error hd ▸ hd)⟩
    | ok i =>
      have hi : currentInstr s = some i := (currentInstr_eq_some_iff i).mpr ⟨hs, w, hf, hd⟩
      rcases outcomes i s with ⟨c, hc, he⟩ | ⟨u, he, hframe⟩
      · exact ⟨_, (step_of_currentInstr hi he).trans (congrArg _ (finishStep_latched rfl)), .fault hi hc he⟩
      · have hu : u.fault = none := (hframe.parts .fault (not_written i .fault (by simp))).trans hs
        exact ⟨_, (step_of_currentInstr hi he).trans (congrArg _ (finishStep_clear hu)), .ran hi he hu hframe⟩

theorem stepResult (hs : s.fault = none) (h : step s = .next t) : StepResult s t := by
  obtain ⟨u, hu, hres⟩ := exists_stepResult hs
  exact Host.Outcome.next.inj (h.symm.trans hu) ▸ hres

/-! ### The outputs of a step -/

theorem stepOutput_latched (h : s.fault = some r) : stepOutput s = faultedOutput r := by
  simp only [stepOutput, h]

theorem stepOutput_fetchFault (hs : s.fault = none) (hf : fetch s = .error c) :
    stepOutput s = faultedOutput { cause := c, pc := s.pc, word := none } := by
  simp only [stepOutput, hs, hf]

theorem stepOutput_unknown {e : DecodeReject} (hs : s.fault = none) (hf : fetch s = .ok w)
    (hd : decode w = .error e) : stepOutput s = { status := .unknownOpcode w, soundEvent := tickSound s } := by
  simp only [stepOutput, hs, hf, hd]

theorem stepOutput_of_currentInstr (hi : currentInstr s = some i) : stepOutput s = instrOutput i s := by
  obtain ⟨hs, w, hf, hd⟩ := (currentInstr_eq_some_iff i).mp hi
  simp only [stepOutput, hs, hf, hd]

theorem stepOutput_faulted (hi : currentInstr s = some i) (he : exec i s = .next t) (ht : t.fault = some r) :
    stepOutput s = faultedOutput r := by
  simp only [stepOutput_of_currentInstr hi, instrOutput, he, ht]

theorem stepOutput_ran (hi : currentInstr s = some i) (he : exec i s = .next t) (ht : t.fault = none) :
    stepOutput s = { status := executeStatus i s, soundEvent := tickSound t } := by
  simp only [stepOutput_of_currentInstr hi, instrOutput, he, ht]

/-- Only the key wait looks at the state for its status. -/
theorem executeStatus_of_ne_ldVxK (h : ∀ x, i ≠ .ldVxK x) : executeStatus i s = .advanced := by
  cases i with
  | ldVxK x => exact absurd rfl (h x)
  | _ => rfl

theorem executeStatus_ne_faulted (i : Instr) (s : State) (r : FaultRecord) : executeStatus i s ≠ .faulted r := by
  by_cases h : ∃ x, i = .ldVxK x
  · obtain ⟨x, rfl⟩ := h
    cases hk : pressedKey s with
    | none => rw [executeStatus_ldVxK_blocked hk]; nofun
    | some k => rw [executeStatus_ldVxK_pressed hk]; nofun
  · rw [executeStatus_of_ne_ldVxK fun x hx => h ⟨x, hx⟩]; nofun

/-- A step's status is `Faulted` with the record that the step leaves latched, and not otherwise. -/
theorem status_faulted_iff (h : step s = .next t) (r : FaultRecord) :
    (stepOutput s).status = .faulted r ↔ t.fault = some r := by
  cases hs : s.fault with
  | some q =>
    obtain rfl := Host.Outcome.next.inj ((step_latched hs).symm.trans h)
    simp [stepOutput_latched hs, faultedOutput, hs]
  | none =>
    cases stepResult hs h with
    | fetchFault hf => simp [stepOutput_fetchFault hs hf, faultedOutput]
    | unknown hf hd => simp [stepOutput_unknown hs hf hd, hs]
    | fault hi _ he => simp [stepOutput_faulted hi he rfl, faultedOutput]
    | ran hi he hu _ => simp [stepOutput_ran hi he hu, executeStatus_ne_faulted, hu]

theorem exists_highest_key (h : ∃ k, s.keyAt k = true) :
    ∃ k, s.keyAt k = true ∧ ∀ l, s.keyAt l = true → l ≤ k := by
  obtain ⟨k, hk, hmax⟩ := Set.exists_max_image {k | s.keyAt k = true} id (Set.toFinite _) h
  exact ⟨k, hk, hmax⟩

/-- Settles O18: the execute phase's latch and the key scan decide the outputs. -/
theorem stepOutputsOfInstruction : Obligations.StepOutputsOfInstruction := by
  intro s t i hi he
  refine ⟨fun r hr => stepOutput_faulted hi he hr, fun ht => ?_⟩
  rw [stepOutput_ran hi he ht]
  refine ⟨rfl, ?_, ?_⟩
  · rintro ⟨x, rfl⟩ hnone
    exact executeStatus_ldVxK_blocked (x := x) (pressedKey_none s hnone)
  · rintro hadv
    by_cases hx : ∃ x, i = .ldVxK x
    · obtain ⟨x, rfl⟩ := hx
      obtain ⟨k, hk, hmax⟩ := exists_highest_key (hadv.resolve_left fun hne => hne x rfl)
      exact executeStatus_ldVxK_pressed (x := x) (pressedKey_highest s k hk hmax)
    · exact executeStatus_of_ne_ldVxK fun x hxi => hx ⟨x, hxi⟩

/-! ### Steps that fault, and steps that are frozen -/

/-- Settles O11: the step of an unknown word is the tick. -/
theorem unknownOpcodeStepOnlyTicks : Obligations.UnknownOpcodeStepOnlyTicks :=
  fun s _ hs hf hd => ⟨tick s, step_unknown hs hf hd, tick_onlyChanges s, countDown_toNat s.dt, countDown_toNat s.st,
    stepOutput_unknown hs hf hd⟩

/-- Settles O12: the rejected fetch is latched with the cause it names. -/
theorem fetchFaultIsLatched : Obligations.FetchFaultIsLatched :=
  fun _ hs h => ⟨step_fetchFault hs (fetch_outOfRange h), stepOutput_fetchFault hs (fetch_outOfRange h)⟩

theorem run_succ (h : step s = .next t) (n : Nat) : core.run (n + 1) s = core.run n t := by
  have hstep : core.step s = .next t := h
  simp only [Host.Core.run, hstep]

theorem run_latched (h : s.fault = some r) (n : Nat) : core.run n s = .next s := by
  induction n with
  | zero => rfl
  | succ n ih => rw [run_succ (step_latched h), ih]

/-- Settles O13: one frozen step is any number of them. -/
theorem latchedFaultFreezesMachine : Obligations.LatchedFaultFreezesMachine :=
  fun _ _ h => ⟨run_latched h, stepOutput_latched h⟩

/-- Settles O14: the two ways to enter a fault are from the state the step began in, the one without a word and the
other with the word the instruction was decoded from. -/
theorem faultingStepHasNoPartialEffect : Obligations.FaultingStepHasNoPartialEffect := by
  intro s t r hs h hr
  cases stepResult hs h with
  | fetchFault hf =>
    obtain rfl := Option.some.inj hr
    refine ⟨rfl, rfl, fun w hw => ?_, fun c hc => ⟨rfl, Except.error.inj (hf.symm.trans hc)⟩⟩
    cases hf.symm.trans hw
  | unknown => exact absurd (hs.symm.trans hr) nofun
  | fault hi =>
    obtain rfl := Option.some.inj hr
    have hf := fetch_of_currentInstr hi
    refine ⟨rfl, rfl, fun w hw => congrArg some (Except.ok.inj (hf.symm.trans hw)), fun c hc => ?_⟩
    cases hf.symm.trans hc
  | ran _ _ hu => exact absurd (hu.symm.trans hr) nofun

/-- A step writes neither the parameters nor the keys. -/
theorem step_keeps (h : step s = .next t) : t.config = s.config ∧ ∀ k, t.keyAt k = s.keyAt k := by
  cases hs : s.fault with
  | some r =>
    obtain rfl := Host.Outcome.next.inj ((step_latched hs).symm.trans h)
    exact ⟨rfl, fun _ => rfl⟩
  | none =>
    cases stepResult hs h with
    | fetchFault | unknown | fault => exact ⟨rfl, fun _ => rfl⟩
    | @ran i _ _ _ _ hframe =>
      exact ⟨hframe.parts .config (not_written i .config (by simp)), hframe.parts .key (not_written i .key (by simp))⟩

theorem step_answers (s : State) : ∃ t, step s = .next t := by
  cases hs : s.fault with
  | some r => exact ⟨s, step_latched hs⟩
  | none =>
    obtain ⟨t, h, -⟩ := exists_stepResult hs
    exact ⟨t, h⟩

/-- Settles O15: every way a step ends is a next state. -/
theorem everyStepAnswersNextState : Obligations.EveryStepAnswersNextState := by
  intro s
  obtain ⟨t, h⟩ := step_answers s
  exact ⟨t, h, (step_keeps h).1, (step_keeps h).2, status_faulted_iff h⟩

/-! ### The timers along a step -/

theorem dt_not_written (h : ∀ x, i ≠ .ldDtVx x) : Part.dt ∉ .pc :: writtenParts i := by
  cases i with
  | ldDtVx x => exact absurd rfl (h x)
  | _ => exact of_decide_eq_true rfl

theorem st_not_written (h : ∀ x, i ≠ .ldStVx x) : Part.st ∉ .pc :: writtenParts i := by
  cases i with
  | ldStVx x => exact absurd rfl (h x)
  | _ => exact of_decide_eq_true rfl

/-- Settles O17: `FX15` and `FX18` are the only instructions given a timer, and every step that enters no fault ends
with the tick. -/
theorem timersCountDownOncePerStep : Obligations.TimersCountDownOncePerStep := by
  intro s t hs h ht
  cases stepResult hs h with
  | fetchFault | fault => cases ht
  | unknown hf hd =>
    rw [currentInstr_of_unknown hf hd]
    exact ⟨nofun, fun _ => countDown_toNat s.dt, nofun, fun _ => countDown_toNat s.st⟩
  | @ran i u hi he _ hframe =>
    rw [hi]
    refine ⟨fun x hx => ?_, fun hne => ?_, fun x hx => ?_, fun hne => ?_⟩
    · obtain rfl := Option.some.inj hx
      obtain rfl := Host.Outcome.next.inj ((exec_ldDtVx x s).symm.trans he)
      exact countDown_toNat _
    · have hdt : u.dt = s.dt := hframe.parts .dt (dt_not_written fun x hx => hne x (congrArg some hx))
      rw [State.tick_dt, hdt, countDown_toNat]
    · obtain rfl := Option.some.inj hx
      obtain rfl := Host.Outcome.next.inj ((exec_ldStVx x s).symm.trans he)
      exact countDown_toNat _
    · have hst : u.st = s.st := hframe.parts .st (st_not_written fun x hx => hne x (congrArg some hx))
      rw [State.tick_st, hst, countDown_toNat]

end Sys2Proof.Machine
end

section
/-!
The invariant of the machine (spec/10_state.md section 14): it holds after construction, every step keeps it, and so
does every operation of the host; and the proofs that settle the obligations of reset, of the invariant and of the host's
operations.
-/

namespace Sys2Proof.Machine

variable {s t : State}

/-! ### Construction -/

theorem construct_cell (c : Config) (r k : Nat) : (State.construct c).cell r k = false :=
  (State.construct c).clearDisplay_cell r k

theorem construct_stack_getD (c : Config) (k : Nat) : (State.construct c).stack.getD k 0 = 0 := by
  show (List.replicate c.stackDepth (0 : Word)).getD k 0 = 0
  rw [List.getD_eq_getElem?_getD, List.getElem?_replicate]
  split <;> rfl

/-- Settles O1: every field is read off the construction, and an address that nothing has written reads as the font or
as 0. -/
theorem constructionLeavesResetValues : Obligations.ConstructionLeavesResetValues := by
  intro c
  refine ⟨rfl, rfl, rfl, fun r => Vector.getElem_replicate _, construct_cell c, fun a ha => dif_pos ha,
    fun a ha => dif_neg (Nat.not_lt_of_le ha), rfl, rfl, rfl, List.length_replicate, construct_stack_getD c,
    fun k => Vector.getElem_replicate _, rfl, rfl, rfl⟩

theorem construct_invariant {c : Config} (h : c.wellFormed = true) : Invariant (State.construct c) where
  configLegal := h
  stackSlots := List.length_replicate
  spBounded := Nat.zero_le _
  liveEntries := fun k hk => absurd hk (Nat.not_lt_zero k)
  memoryCanonical := rfl
  latchConsistent := nofun

/-- Settles O2: nothing is on the stack, in memory's list or in the latch after construction. -/
theorem invariantHoldsAtReset : Obligations.InvariantHoldsAtReset :=
  ⟨fun _ => construct_invariant, construct_invariant (by decide)⟩

theorem ramSize_bounds {c : Config} (h : c.wellFormed = true) : 512 ≤ c.ramSize ∧ c.ramSize ≤ 65536 := by
  simpa [Config.wellFormed] using h

/-! ### What a step does to the stack -/

/-- How the stack moves: it stays as it is with no more entries held, or the free slot at `SP` takes the address in
`PC`. -/
inductive StackMove (s t : State) : Prop
  | kept (hstack : t.stack = s.stack) (hsp : t.sp ≤ s.sp)
  | pushed (hfree : s.sp < s.config.stackDepth) (hstack : t.stack = s.stack.set s.sp s.pc) (hsp : t.sp = s.sp + 1)

/-- Only the call and the return are given the stack. -/
theorem stack_not_written {i : Instr} (h : ¬((∃ nnn, i = .call nnn) ∨ i = .ret)) :
    ∀ p ∈ [Part.stack, .sp], p ∉ .pc :: writtenParts i := by
  cases i with
  | call nnn => exact absurd (.inl ⟨nnn, rfl⟩) h
  | ret => exact absurd (.inr rfl) h
  | _ => exact of_decide_eq_true rfl

theorem exec_stackMove {i : Instr} (he : exec i s = .next t) (ht : t.fault = none)
    (hframe : Frame (.pc :: writtenParts i) (writtenRegs i) s t) : StackMove s t := by
  by_cases hi : (∃ nnn, i = .call nnn) ∨ i = .ret
  · rcases hi with ⟨nnn, rfl⟩ | rfl
    · rcases Nat.lt_or_ge s.sp s.config.stackDepth with hfree | hfull
      · obtain rfl := Host.Outcome.next.inj ((exec_call_free nnn hfree).symm.trans he)
        exact .pushed hfree rfl rfl
      · obtain rfl := Host.Outcome.next.inj ((raises_call_full nnn hfull).symm.trans he)
        cases ht
    · rcases Nat.eq_zero_or_pos s.sp with hempty | hheld
      · obtain rfl := Host.Outcome.next.inj ((raises_ret_empty hempty).symm.trans he)
        cases ht
      · obtain rfl := Host.Outcome.next.inj ((exec_ret_held hheld).symm.trans he)
        exact .kept rfl (Nat.sub_le _ _)
  · have hkept : ∀ p ∈ [Part.stack, .sp], p.same s t := fun p hp => hframe.parts p (stack_not_written hi p hp)
    exact .kept (hkept .stack (by simp)) (le_of_eq (hkept .sp (by simp)))

/-! ### The invariant along a step -/

theorem Invariant.tick (h : Invariant s) : Invariant (tick s) where
  configLegal := h.configLegal
  stackSlots := h.stackSlots
  spBounded := h.spBounded
  liveEntries := h.liveEntries
  memoryCanonical := h.memoryCanonical
  latchConsistent := h.latchConsistent

theorem Invariant.raiseFault {c : FaultCause} {w : Option Word} (h : Invariant s)
    (hw : w = none ↔ ∃ a, c = .memoryFault .fetch a) : Invariant (raiseFault s c w) where
  configLegal := h.configLegal
  stackSlots := h.stackSlots
  spBounded := h.spBounded
  liveEntries := h.liveEntries
  memoryCanonical := h.memoryCanonical
  latchConsistent := by
    rintro r ⟨⟩
    exact ⟨rfl, hw⟩

/-- The address a call pushes is one an instruction was fetched from, so the live entries stay fetchable. -/
theorem Invariant.of_stackMove (h : Invariant s) (hpc : s.pc.toNat + 1 < s.config.ramSize) (hmove : StackMove s t)
    (hconfig : t.config = s.config) (hmem : Memory.wf t.config t.memory = true) (hfault : t.fault = none) :
    Invariant t := by
  have hlatch : LatchConsistent t := fun r hr => absurd (hfault.symm.trans hr) nofun
  cases hmove with
  | kept hstack hsp =>
    exact ⟨hconfig ▸ h.configLegal, by rw [hstack, hconfig]; exact h.stackSlots,
      hconfig ▸ hsp.trans h.spBounded, by rw [hstack, hconfig]; exact fun k hk => h.liveEntries k (hk.trans_le hsp),
      hmem, hlatch⟩
  | pushed hfree hstack hsp =>
    refine ⟨hconfig ▸ h.configLegal, ?_, by rw [hsp, hconfig]; exact hfree, fun k hk => ?_, hmem, hlatch⟩
    · rw [hstack, hconfig, List.length_set]
      exact h.stackSlots
    · rw [hstack, hconfig, List.getD_eq_getElem?_getD]
      by_cases hks : k = s.sp
      · rw [hks, List.getElem?_set_self (h.stackSlots ▸ hfree)]
        exact hpc
      · rw [List.getElem?_set_ne (Ne.symm hks), ← List.getD_eq_getElem?_getD]
        exact h.liveEntries k (by omega)

theorem not_canRaise_fetchFault (i : Instr) (a : Nat) : ¬CanRaise i (.memoryFault .fetch a) := by
  cases i with
  | _ => exact id

theorem fetch_error_cause {c : FaultCause} (h : fetch s = .error c) : ∃ a, c = .memoryFault .fetch a := by
  have hout := (fetch_error_iff s).mp ⟨c, h⟩
  exact ⟨_, Except.error.inj (h.symm.trans (fetch_outOfRange hout))⟩

theorem Invariant.of_stepResult (h : Invariant s) (hres : StepResult s t) : Invariant t := by
  cases hres with
  | fetchFault hf => exact h.raiseFault (iff_of_true rfl (fetch_error_cause hf))
  | unknown => exact h.tick
  | @fault i _ _ hc =>
    refine h.raiseFault (iff_of_false nofun ?_)
    rintro ⟨a, rfl⟩
    exact not_canRaise_fetchFault i a hc
  | @ran i u hi he hu hframe =>
    have hpc := fetch_ok_inRange (fetch_of_currentInstr hi)
    have hconfig : u.config = s.config := hframe.parts .config (not_written i .config (by simp))
    exact (h.of_stackMove hpc (exec_stackMove he hu hframe) hconfig (hframe.canonical h.memoryCanonical) hu).tick

/-- Settles O3: a frozen step is none, and each way a step ends keeps the invariant. -/
theorem stepKeepsInvariant : Obligations.StepKeepsInvariant := by
  intro s t h hstep
  cases hs : s.fault with
  | some r =>
    obtain rfl := Host.Outcome.next.inj ((step_latched hs).symm.trans hstep)
    exact h
  | none => exact h.of_stepResult (stepResult hs hstep)

/-! ### The host's operations -/

theorem setKey_key {k : Nat} (hk : k < 16) (p : Bool) : setKey s k p = { s with key := s.key.set k p hk } := dif_pos hk

theorem setKey_outOfRange {k : Nat} (hk : 16 ≤ k) (p : Bool) : setKey s k p = s := dif_neg (Nat.not_lt_of_le hk)

/-- Settles O45: an index of a key names one cell of the latch, and any other index none. -/
theorem setKeyWritesOneKey : Obligations.SetKeyWritesOneKey := by
  intro s k p
  refine ⟨fun l => ?_, fun hk => setKey_outOfRange hk p, ?_⟩
  · rcases Nat.lt_or_ge k 16 with hk | hk
    · rw [setKey_key hk, State.keyAt, Vector.getElem_set]
      simp only [eq_comm (a := k)]
      rfl
    · rw [setKey_outOfRange hk, if_neg (by omega)]
  · rcases Nat.lt_or_ge k 16 with hk | hk
    · rw [setKey_key hk]
      exact onlyChanges_key s _
    · rw [setKey_outOfRange hk]
      exact (OnlyChanges.refl s).mono (by simp)

theorem cell_inGrid {r c : Nat} (hr : r < 32) (hc : c < 64) : s.cell r c = ((readDisplay s)[r])[c] :=
  dif_pos (And.intro hr hc)

/-- Settles O46: the snapshot is the grid itself, and the poll one write of the flag. -/
theorem pollClearsRedrawAndSnapshotIsWhole : Obligations.PollClearsRedrawAndSnapshotIsWhole :=
  fun s => ⟨fun _ _ hr hc => (cell_inGrid hr hc).symm, rfl, rfl, rfl, rfl, pollAndClearRedraw_onlyChanges s⟩

theorem loadProgram_fits {bytes : List Byte} (h : bytes.length ≤ s.config.ramSize - 512) :
    loadProgram s bytes = (.success, copyBytes 0x200 bytes s) := if_neg (Nat.not_lt_of_le h)

theorem loadProgram_tooLong {bytes : List Byte} (h : s.config.ramSize - 512 < bytes.length) :
    loadProgram s bytes = (.sizeViolation, s) := if_pos h

/-- Settles O47: a program that fits is one copy to `0x200`, and a longer one is refused. -/
theorem loadProgramCopiesOrRefuses : Obligations.LoadProgramCopiesOrRefuses := by
  intro s bytes
  refine ⟨fun h => ?_, loadProgram_tooLong⟩
  rw [loadProgram_fits h]
  exact ⟨rfl, fun k hk => copyBytes_byteAt_getElem bytes s hk, copyBytes_bytesSameOutside 0x200 bytes s,
    copyBytes_onlyChanges s 0x200 bytes⟩

theorem setKey_invariant (h : Invariant s) (k : Nat) (p : Bool) : Invariant (setKey s k p) := by
  rcases Nat.lt_or_ge k 16 with hk | hk
  · rw [setKey_key hk]
    exact ⟨h.configLegal, h.stackSlots, h.spBounded, h.liveEntries, h.memoryCanonical, h.latchConsistent⟩
  · rwa [setKey_outOfRange hk]

theorem pollAndClearRedraw_invariant (h : Invariant s) : Invariant (pollAndClearRedraw s).2 :=
  ⟨h.configLegal, h.stackSlots, h.spBounded, h.liveEntries, h.memoryCanonical, h.latchConsistent⟩

theorem copyBytes_invariant (h : Invariant s) {a : Nat} {bs : List Byte} (hfits : a + bs.length ≤ s.config.ramSize) :
    Invariant (copyBytes a bs s) := by
  have hwf := copyBytes_wf a bs s hfits h.memoryCanonical
  obtain ⟨m, hm⟩ := copyBytes_onlyMemory a bs s
  rw [hm] at hwf ⊢
  exact ⟨h.configLegal, h.stackSlots, h.spBounded, h.liveEntries, hwf, h.latchConsistent⟩

/-- A program that is accepted ends below `RAM_SIZE`, which a legal configuration puts above `0x200`. -/
theorem loadProgram_invariant (h : Invariant s) (bytes : List Byte) : Invariant (loadProgram s bytes).2 := by
  rcases Nat.lt_or_ge (s.config.ramSize - 512) bytes.length with hlen | hlen
  · rwa [loadProgram_tooLong hlen]
  · have hram := (ramSize_bounds h.configLegal).1
    rw [loadProgram_fits hlen]
    exact copyBytes_invariant h (by omega)

/-- Settles O4: no host operation writes the stack, `PC` or the latch, and a loaded program keeps memory canonical. -/
theorem hostOperationsKeepInvariant : Obligations.HostOperationsKeepInvariant := by
  intro m s t hm h he
  cases m with
  | step => exact absurd rfl hm
  | setKey k p => exact Host.Outcome.next.inj he ▸ setKey_invariant h k p
  | readDisplay => exact Host.Outcome.next.inj he ▸ h
  | pollAndClearRedraw => exact Host.Outcome.next.inj he ▸ pollAndClearRedraw_invariant h
  | loadProgram bytes => exact Host.Outcome.next.inj he ▸ loadProgram_invariant h bytes

end Sys2Proof.Machine
end

section
/-!
The end of a run (spec/40_step_cycle.md section 6) and self-modifying code (20_memory.md section 7), and the proofs that
settle their obligations.
-/

namespace Sys2Proof.Machine

variable {s t : State}

/-! ### The end of a run -/

theorem currentInstr_of_fetch {i : Instr} (hs : s.fault = none) (hf : fetch s = .ok (encode i))
    (hi : i.wellFormed = true) : currentInstr s = some i :=
  (currentInstr_eq_some_iff i).mpr ⟨hs, encode i, hf, decode_encode hi⟩

theorem spinsAt_iff_fetch (a : Addr) :
    s.spinsAt a = true ↔ s.fault = none ∧ s.pc.toNat = a.toNat ∧ fetch s = .ok (encode (.jp a)) := by
  rw [spinsAt_eq_true_iff, ← zextAddr_toNat a, ← BitVec.toNat_inj]
  constructor
  · rintro ⟨hi, hpc⟩
    exact ⟨fault_of_currentInstr hi, hpc, fetch_of_currentInstr hi⟩
  · rintro ⟨hs, hpc, hf⟩
    exact ⟨currentInstr_of_fetch hs hf rfl, hpc⟩

/-- The self-jump writes the value `PC` already has. -/
theorem exec_jp_of_spinsAt {a : Addr} (h : s.spinsAt a = true) : exec (.jp a) s = .next s := by
  obtain ⟨-, hpc⟩ := (spinsAt_eq_true_iff a).mp h
  rw [exec_jp, ← hpc]
  rfl

theorem step_of_spinsAt {a : Addr} (h : s.spinsAt a = true) : step s = .next (tick s) := by
  obtain ⟨hi, -⟩ := (spinsAt_eq_true_iff a).mp h
  rw [step_of_currentInstr hi (exec_jp_of_spinsAt h), finishStep_clear (fault_of_currentInstr hi)]

theorem status_of_spinsAt {a : Addr} (h : s.spinsAt a = true) : (stepOutput s).status = .advanced := by
  obtain ⟨hi, -⟩ := (spinsAt_eq_true_iff a).mp h
  rw [stepOutput_ran hi (exec_jp_of_spinsAt h) (fault_of_currentInstr hi)]
  rfl

/-- In the self-jump every step is the tick, which leaves the self-jump as it is. -/
theorem run_of_spinsAt {a : Addr} (h : s.spinsAt a = true) (n : Nat) :
    ∃ t, core.run n s = .next t ∧ t.spinsAt a = true ∧ OnlyChanges [.dt, .st] s t := by
  induction n generalizing s with
  | zero => exact ⟨s, rfl, h, (OnlyChanges.refl s).mono (by simp)⟩
  | succ n ih =>
    obtain ⟨t, hrun, hspins, honly⟩ := ih (s := tick s) ((tick_spinsAt a).trans h)
    exact ⟨t, (run_succ (step_of_spinsAt h) n).trans hrun, hspins,
      ((tick_onlyChanges s).trans' honly).mono (by simp)⟩

theorem runEnded_of_spinsAt {a : Addr} (h : s.spinsAt a = true) : s.runEnded a = true := by
  rw [State.runEnded, h, Bool.or_true]

/-- Settles O48: the run of an ended program is frozen in its fault or ticks in its self-jump. -/
theorem endedRunChangesOnlyTimers : Obligations.EndedRunChangesOnlyTimers := by
  intro s a
  refine ⟨spinsAt_iff_fetch a, ?_, fun h => ⟨step_of_spinsAt h, status_of_spinsAt h⟩, fun h n => ?_⟩
  · rw [State.runEnded, Bool.or_eq_true, State.halted, Option.isSome_iff_ne_none]
  · rcases (runEnded_eq_true_iff a).mp h with ⟨r, hr⟩ | ⟨-, hspins⟩
    · exact ⟨s, run_latched hr n, h, (OnlyChanges.refl s).mono (by simp)⟩
    · obtain ⟨t, hrun, ht, honly⟩ := run_of_spinsAt hspins n
      exact ⟨t, hrun, runEnded_of_spinsAt ht, honly⟩

/-! ### A stored word is fetched -/

theorem fetch_tick (s : State) : fetch (tick s) = fetch s := rfl

/-- The fetch of the next step reads the two bytes behind the instruction, where neither the advance nor the second
address leaves memory. -/
theorem fetch_after_advance {hi lo : Byte} (hadv : AdvancesBy 2 s t) (hpc : s.pc.toNat + 2 < 65536)
    (hin : s.pc.toNat + 3 < t.config.ramSize) (hhi : t.byteAt (s.pc.toNat + 2) = hi)
    (hlo : t.byteAt (s.pc.toNat + 3) = lo) : fetch t = .ok (wordOfBytes hi lo) := by
  have hpc' : t.pc.toNat = s.pc.toNat + 2 := hadv.trans (Nat.mod_eq_of_lt hpc)
  rw [fetch_inRange (by rw [hpc']; exact hin), hpc', hhi, hlo]

theorem step_stRegs {x : Reg} (hi : currentInstr s = some (.stRegs x)) (h : s.i.toNat + x.val < s.config.ramSize) :
    step s = .next (tick (s.afterStRegs x)) := by
  have hfault : (s.afterStRegs x).fault = none :=
    ((frame_afterStRegs h).parts .fault (by simp)).trans (fault_of_currentInstr hi)
  rw [step_of_currentInstr hi (exec_stRegs_inRange h), finishStep_clear hfault]

theorem step_ldB {x : Reg} (hi : currentInstr s = some (.ldB x)) (h : s.i.toNat + 2 < s.config.ramSize) :
    step s = .next (tick (s.afterLdB x)) := by
  have hfault : (s.afterLdB x).fault = none :=
    ((frame_afterLdB h).parts .fault (by simp)).trans (fault_of_currentInstr hi)
  rw [step_of_currentInstr hi (exec_ldB_inRange h), finishStep_clear hfault]

theorem fetch_after_stRegs {x j k : Reg} (hram : s.config.ramSize ≤ 65536)
    (h : s.i.toNat + x.val < s.config.ramSize) (hk : k ≤ x) (hj2 : s.i.toNat + j.val = s.pc.toNat + 2)
    (hk3 : s.i.toNat + k.val = s.pc.toNat + 3) : fetch (s.afterStRegs x) = .ok (s.getV j ++ s.getV k) := by
  have hkx : k.val ≤ x.val := hk
  have hjx : j ≤ x := Fin.le_def.mpr (by omega)
  have hconfig : (s.afterStRegs x).config = s.config := (frame_afterStRegs h).parts .config (by simp)
  refine fetch_after_advance (copyBytes_advancesBy s.i.toNat (s.bytesUpTo x) s) (by omega) (by rw [hconfig]; omega)
    ?_ ?_
  · rw [← hj2, afterStRegs_byteAt s hjx]
  · rw [← hk3, afterStRegs_byteAt s hk]

/-- The digits that cover the next instruction, as the word it then is. -/
theorem fetch_after_ldB {x : Reg} {hi lo : Byte} (hram : s.config.ramSize ≤ 65536)
    (h : s.i.toNat + 2 < s.config.ramSize) (hin : s.pc.toNat + 3 ≤ s.i.toNat + 2)
    (hhi : (s.afterLdB x).byteAt (s.pc.toNat + 2) = hi) (hlo : (s.afterLdB x).byteAt (s.pc.toNat + 3) = lo) :
    ∃ w, fetch (s.afterLdB x) = .ok w ∧ w.toNat = 256 * hi.toNat + lo.toNat := by
  have hconfig : (s.afterLdB x).config = s.config := (frame_afterLdB h).parts .config (by simp)
  exact ⟨_, fetch_after_advance (copyBytes_advancesBy s.i.toNat (digits (s.getV x)) s) (by omega)
    (by rw [hconfig]; omega) hhi hlo, wordOfBytes_toNat hi lo⟩

/-- Settles O38: the step is the store and the tick, which a fetch does not see, and the two bytes behind the
instruction are then the stored ones. -/
theorem storedWordIsFetchedNext : Obligations.StoredWordIsFetchedNext := by
  intro s t x hconfig hstep
  have hram := (ramSize_bounds hconfig).2
  obtain ⟨hhundreds, htens, hones⟩ := afterLdB_byteAt s x
  refine ⟨fun j k hi h hk hj2 hk3 => ?_, fun hi h hpc => ?_, fun hi h hpc => ?_⟩
  · obtain rfl := Host.Outcome.next.inj ((step_stRegs hi h).symm.trans hstep)
    exact fetch_after_stRegs hram h hk hj2 hk3
  · obtain rfl := Host.Outcome.next.inj ((step_ldB hi h).symm.trans hstep)
    rw [hpc] at hhundreds
    rw [show s.i.toNat + 1 = s.pc.toNat + 3 by omega] at htens
    rw [fetch_tick, ← hundreds_toNat, ← tens_toNat]
    exact fetch_after_ldB hram h (by omega) hhundreds htens
  · obtain rfl := Host.Outcome.next.inj ((step_ldB hi h).symm.trans hstep)
    rw [show s.i.toNat + 1 = s.pc.toNat + 2 by omega] at htens
    rw [show s.i.toNat + 2 = s.pc.toNat + 3 by omega] at hones
    rw [fetch_tick, ← tens_toNat, ← ones_toNat]
    exact fetch_after_ldB hram h (by omega) htens hones

end Sys2Proof.Machine
end
